-- ==== Sys2Proof/Word.lean ====
section
/-! DEFINITION. Word types of the block and the plainest cutting and joining of words. -/

namespace Sys2Proof

/-- A sample, a payload byte, a sink byte: 8 bits unsigned (00_scope.md R7). -/
abbrev Byte := BitVec 8

/-- A command word or a response word (30_encoding.md R80, R87). -/
abbrev Word64 := BitVec 64

/-- An immediate operand or a 32-bit register (30_encoding.md R84). -/
abbrev Word32 := BitVec 32

end Sys2Proof
end

