-- ==== Sys2Proof/Config.lean ====
section
/-! DEFINITION. Config: the implementation parameters of 00_scope.md section 4 that the spec fixes, the session's open
parameter, and the one free value of the model. -/

namespace Sys2Proof

/-- Size of the file header in bytes (00_scope.md R10). -/
def Config.fileHeaderSize : Nat := 14

/-- Size of the DIB header in bytes (00_scope.md R10). -/
def Config.dibHeaderSize : Nat := 40

/-- Entries of the palette, present for one channel only (00_scope.md R10). -/
def Config.paletteEntries : Nat := 256

/-- Bytes of one palette entry (00_scope.md R10). -/
def Config.paletteEntrySize : Nat := 4

/-- `MAXFILE`: a file has fewer bytes than this (00_scope.md R11). -/
def Config.maxFile : Nat := 2 ^ 32

/-- The sink's addresses are `0 .. sinkSize - 1` (20_memory.md R50). -/
def Config.sinkSize : Nat := 2 ^ 32

/-- `WIDTH` and `HEIGHT` lie below this (00_scope.md R9). -/
def Config.dimensionLimit : Nat := 2 ^ 31

/-- `UNDERWRITE_POLICY`, open, outside the block (70_reset_and_hazards.md R192; 93_implementation_defined.md U3):
what the session makes of fewer than `HEIGHT` rows at close. An argument of the session-level close, never fixed. -/
inductive UnderwritePolicy where
  | error
  | ignore
  deriving DecidableEq, Repr

/-- FREE VALUE `SHORT_WRITE_DRAW` (20_memory.md R61; 93_implementation_defined.md U8; log 2): what the sink offers to
accept at its `k`-th write when the state lists no answer. No body, so nothing can be proved of any value of it. -/
opaque Config.sinkAccept : Nat → Nat

end Sys2Proof
end

