-- ==== Sys2Proof/Syntax.lean ====
section
/-! DEFINITION. Syntax: the seven commands of 30_encoding.md R83, one constructor for each row of spec/opcode_table.json. -/

namespace Sys2Proof

/-- The register index space of 10_state.md R29, `RD`'s operand. -/
inductive Reg where
  | width
  | height
  | nchan
  | pixoff
  | padlen
  | status
  | fault
  | rowcnt
  deriving DecidableEq, Repr

/-- One command with its operands. A row's samples are an operand of `ENC`: they arrive with the command word as its
payload (30_encoding.md R80, R82). -/
inductive Instr where
  /-- `SETW`, the width (40_config.md R101). -/
  | setw (imm : Word32)
  /-- `SETH`, the height (40_config.md R102). -/
  | seth (imm : Word32)
  /-- `SETC`, the channel count (40_config.md R103). -/
  | setc (imm : Word32)
  /-- `BIND` (40_config.md R104). -/
  | bind
  /-- `ENC`, a logical row index and the row's sample bytes (41_encode.md R120). -/
  | enc (row : Word32) (payload : List Byte)
  /-- `REL` (42_session.md R140). -/
  | rel
  /-- `RD`, a register (42_session.md R141). -/
  | rd (reg : Reg)
  deriving DecidableEq, Repr

end Sys2Proof
end

