-- ==== Sys2Proof/WellFormed.lean ====
section
/-! DEFINITION. WellFormed: the operand values the encoding admits (30_encoding.md R83, R85). -/

namespace Sys2Proof

/-- The width and height immediates have bit 31 clear (30_encoding.md R85 case 4); every other operand type admits its
legal values only, and an `ENC` payload may have any length (30_encoding.md R82, format P). -/
abbrev Instr.WellFormed (i : Instr) : Prop :=
  match i with
  | .setw imm => imm.toNat < Config.dimensionLimit
  | .seth imm => imm.toNat < Config.dimensionLimit
  | .setc _ => True
  | .bind => True
  | .enc _ _ => True
  | .rel => True
  | .rd _ => True

/-- `WellFormed` as a Bool, for tests. -/
def Instr.wellFormed (i : Instr) : Bool :=
  match i with
  | .setw imm => decide (imm.toNat < Config.dimensionLimit)
  | .seth imm => decide (imm.toNat < Config.dimensionLimit)
  | .setc _ => true
  | .bind => true
  | .enc _ _ => true
  | .rel => true
  | .rd _ => true

end Sys2Proof
end

