-- ==== Sys2Proof/Decode.lean ====
section
/-! DEFINITION. Decode: from a transaction (word and payload) to a command or a named rejection, total; the encoder; the
opcode table of 30_encoding.md R83; and the byte-wide transport of 30_encoding.md R81 and 20_memory.md R57. -/

namespace Sys2Proof

/-- A command transaction: a 64-bit command word together with a payload (30_encoding.md R80). -/
structure Transaction where
  word : Word64
  payload : List Byte
  deriving DecidableEq, Repr

/-- Why a transaction is illegal: the cases of 30_encoding.md R85. The block's answer is the same for all of them
(`IllegalCommand`); which name is given when several hold is the model's choice (log 11). -/
inductive DecodeError where
  /-- R85 case 1. -/
  | unknownOpcode
  /-- R85 case 2. -/
  | reservedNotZero
  /-- R85 case 3. -/
  | immediateNotZero
  /-- R85 case 4. -/
  | dimensionTooLarge
  /-- R85 case 5. -/
  | registerIndexTooLarge
  /-- R85 case 6. -/
  | payloadNotEmpty
  /-- Fewer than eight bytes on a byte-wide transport: no command word at all, so no transaction (log 11). -/
  | frameTooShort
  deriving DecidableEq, Repr

/-! ## Fields of the command word (30_encoding.md R81) -/

/-- `OP`, bits 63:56. -/
def opOf (w : Word64) : BitVec 8 := w.extractLsb' 56 8

/-- `RSV`, bits 55:32. -/
def rsvOf (w : Word64) : BitVec 24 := w.extractLsb' 32 24

/-- `IMM`, bits 31:0, unsigned, used as it stands (30_encoding.md R84). -/
def immOf (w : Word64) : Word32 := w.extractLsb' 0 32

/-- The command word with the given fields. -/
def joinWord (op : BitVec 8) (rsv : BitVec 24) (imm : Word32) : Word64 := op ++ rsv ++ imm

/-! ## Register indices (10_state.md R29) -/

/-- The index of a register. -/
def Reg.index (r : Reg) : Nat :=
  match r with
  | .width => 0
  | .height => 1
  | .nchan => 2
  | .pixoff => 3
  | .padlen => 4
  | .status => 5
  | .fault => 6
  | .rowcnt => 7

/-- The register of an index; none at 8 and above. -/
def regOfIndex (n : Nat) : Option Reg :=
  match n with
  | 0 => some .width
  | 1 => some .height
  | 2 => some .nchan
  | 3 => some .pixoff
  | 4 => some .padlen
  | 5 => some .status
  | 6 => some .fault
  | 7 => some .rowcnt
  | _ => none

/-! ## The decoder -/

/-- Format `P`: `RSV` must be 0, any payload (30_encoding.md R82). -/
def decodeFormatP (t : Transaction) (i : Except DecodeError Instr) : Except DecodeError Instr :=
  if rsvOf t.word = 0 then i else .error .reservedNotZero

/-- Format `I`: as format `P`, and the payload must be empty (30_encoding.md R82). -/
def decodeFormatI (t : Transaction) (i : Except DecodeError Instr) : Except DecodeError Instr :=
  decodeFormatP t (if t.payload = [] then i else .error .payloadNotEmpty)

/-- Format `Z`: as format `I`, and `IMM` must be 0 (30_encoding.md R82). -/
def decodeFormatZ (t : Transaction) (i : Instr) : Except DecodeError Instr :=
  decodeFormatI t (if immOf t.word = 0 then .ok i else .error .immediateNotZero)

/-- A width or height operand: bit 31 must be 0 (30_encoding.md R85 case 4). -/
def decodeDimension (imm : Word32) (mk : Word32 → Instr) : Except DecodeError Instr :=
  if imm.toNat < 2 ^ 31 then .ok (mk imm) else .error .dimensionTooLarge

/-- A register index operand: at most 7 (30_encoding.md R85 case 5). -/
def decodeRegister (imm : Word32) : Except DecodeError Instr :=
  match regOfIndex imm.toNat with
  | some r => .ok (.rd r)
  | none => .error .registerIndexTooLarge

/-- The decoder: every word with every payload is one of the seven commands or illegal (30_encoding.md R83, R85). -/
def decode (t : Transaction) : Except DecodeError Instr :=
  match (opOf t.word).toNat with
  | 1 => decodeFormatI t (decodeDimension (immOf t.word) .setw)
  | 2 => decodeFormatI t (decodeDimension (immOf t.word) .seth)
  | 3 => decodeFormatI t (.ok (.setc (immOf t.word)))
  | 4 => decodeFormatZ t .bind
  | 5 => decodeFormatP t (.ok (.enc (immOf t.word) t.payload))
  | 6 => decodeFormatZ t .rel
  | 7 => decodeFormatI t (decodeRegister (immOf t.word))
  | _ => .error .unknownOpcode

/-! ## The encoder -/

/-- `OP` of a command (30_encoding.md R83). -/
def Instr.opcode (i : Instr) : BitVec 8 :=
  match i with
  | .setw _ => 0x01
  | .seth _ => 0x02
  | .setc _ => 0x03
  | .bind => 0x04
  | .enc _ _ => 0x05
  | .rel => 0x06
  | .rd _ => 0x07

/-- `IMM` of a command (30_encoding.md R82, R84). -/
def Instr.immediate (i : Instr) : Word32 :=
  match i with
  | .setw imm => imm
  | .seth imm => imm
  | .setc imm => imm
  | .bind => 0
  | .enc row _ => row
  | .rel => 0
  | .rd r => BitVec.ofNat 32 r.index

/-- The payload of a command: `ENC`'s samples, empty for every other (30_encoding.md R82, R86). -/
def Instr.payload (i : Instr) : List Byte :=
  match i with
  | .setw _ => []
  | .seth _ => []
  | .setc _ => []
  | .bind => []
  | .enc _ p => p
  | .rel => []
  | .rd _ => []

/-- The transaction of a command: `RSV` is 0 (30_encoding.md R81). -/
def encode (i : Instr) : Transaction :=
  { word := joinWord i.opcode 0 i.immediate, payload := i.payload }

/-! ## The opcode table of 30_encoding.md R83 -/

/-- One row: a word spells the row's command exactly when the word masked is the pattern. -/
structure OpcodeRow where
  mnemonic : String
  pattern : Word64
  mask : Word64
  /-- format `P`: a payload may come with the word (30_encoding.md R82) -/
  takesPayload : Bool
  deriving DecidableEq, Repr

/-- A word spells a row's command (30_encoding.md R83). -/
def OpcodeRow.spells (r : OpcodeRow) (w : Word64) : Bool := w &&& r.mask == r.pattern

/-- The rows of 30_encoding.md R83 (spec/opcode_table.json). -/
def opcodeTable : List OpcodeRow :=
  [ ⟨"SETW", 0x0100000000000000, 0xFFFFFFFF80000000, false⟩,
    ⟨"SETH", 0x0200000000000000, 0xFFFFFFFF80000000, false⟩,
    ⟨"SETC", 0x0300000000000000, 0xFFFFFFFF00000000, false⟩,
    ⟨"BIND", 0x0400000000000000, 0xFFFFFFFFFFFFFFFF, false⟩,
    ⟨"ENC", 0x0500000000000000, 0xFFFFFFFF00000000, true⟩,
    ⟨"REL", 0x0600000000000000, 0xFFFFFFFFFFFFFFFF, false⟩,
    ⟨"RD", 0x0700000000000000, 0xFFFFFFFFFFFFFFF8, false⟩ ]

/-- The mnemonic of a command. -/
def Instr.mnemonic (i : Instr) : String :=
  match i with
  | .setw _ => "SETW"
  | .seth _ => "SETH"
  | .setc _ => "SETC"
  | .bind => "BIND"
  | .enc _ _ => "ENC"
  | .rel => "REL"
  | .rd _ => "RD"

/-- A transaction is illegal when one of the six cases of 30_encoding.md R85 holds, in the rule's own terms. -/
abbrev Illegal (t : Transaction) : Prop :=
  (opOf t.word = 0x00 ∨ 0x08 ≤ (opOf t.word).toNat) ∨
  rsvOf t.word ≠ 0 ∨
  ((opOf t.word = 0x04 ∨ opOf t.word = 0x06) ∧ immOf t.word ≠ 0) ∨
  ((opOf t.word = 0x01 ∨ opOf t.word = 0x02) ∧ (immOf t.word).getLsbD 31 = true) ∨
  (opOf t.word = 0x07 ∧ 8 ≤ (immOf t.word).toNat) ∨
  (opOf t.word ≠ 0x05 ∧ t.payload ≠ [])

/-! ## A byte-wide transport: little-endian, word first, then the payload (30_encoding.md R81, R57) -/

/-- The `n` low bytes of a number, least significant first. -/
def leBytes (n v : Nat) : List Byte :=
  match n with
  | 0 => []
  | n + 1 => BitVec.ofNat 8 v :: leBytes n (v / 256)

/-- The number a little-endian byte sequence spells. -/
def leValue (bs : List Byte) : Nat :=
  match bs with
  | [] => 0
  | b :: bs => b.toNat + 256 * leValue bs

/-- A transaction as its bytes. -/
def frameOf (t : Transaction) : List Byte := leBytes 8 t.word.toNat ++ t.payload

/-- The transaction of a frame: the first eight bytes are the word, the rest is the payload. -/
def transactionOfFrame (bs : List Byte) : Option Transaction :=
  if bs.length < 8 then none
  else some { word := BitVec.ofNat 64 (leValue (bs.take 8)), payload := bs.drop 8 }

/-- Decoding from bytes: total. -/
def decodeFrame (bs : List Byte) : Except DecodeError Instr :=
  match transactionOfFrame bs with
  | some t => decode t
  | none => .error .frameTooShort

/-- The frame of a table row's word: its bits in whole bytes, at least the eight of the command word (the bits above
`nbits` are 0), and any bytes the row is given beyond them are payload (log 14). -/
def tableFrame (nbits w : Nat) : List Byte := leBytes (max 8 (nbits / 8)) (w % 2 ^ nbits)

/-- The transaction of a table row's word. -/
def tableTransaction (nbits w : Nat) : Transaction :=
  { word := BitVec.ofNat 64 (leValue ((tableFrame nbits w).take 8)), payload := (tableFrame nbits w).drop 8 }

/-- What the decoder reads from the bytes of a table row's word. -/
def decodeTableWord (nbits w : Nat) : Option Instr :=
  match decodeFrame (tableFrame nbits w) with
  | .ok i => some i
  | .error _ => none

end Sys2Proof
end

