-- ==== Sys2Proof/Machine/State.lean ====
section
/-! DEFINITION. State: every piece of state of 10_state.md R20 as plain data, the model's own input and output fields,
the reasons a step can stop, the error kinds, and the state after reset. -/

namespace Sys2Proof.Machine

/-- `STATUS.ST` (10_state.md R26): value 3 never occurs, so there are three constructors
(93_implementation_defined.md V5; log 6). -/
inductive SessionState where
  /-- `UNOPENED` -/
  | unopened
  /-- `OPEN` -/
  | opened
  /-- `CLOSED` -/
  | closed
  deriving DecidableEq, Repr

/-- The error kinds of 60_exceptions.md R150, with `OK`. `unsupportedMode` and `sinkUnavailable` are the session's and the
block never answers with them (R151, R154). -/
inductive ErrorKind where
  | ok
  | unsupportedMode
  | unsupportedChannelCount
  | fileTooLarge
  | sinkUnavailable
  | rowIndexOutOfRange
  | shortWrite
  | badState
  | illegalCommand
  deriving DecidableEq, Repr

/-- Why the machine stops. -/
inductive Fault where
  /-- Raised by `sinkSeek` and `sinkWrite` (so, of the commands, by `ENC` alone) and by the Header Builder's `writeHeaders`
  for a sink address of `2^32` or more, which 20_memory.md R50 says does not exist. Safe: no step from a state that meets the
  invariant of 10_state.md R34 reaches it (log 7). -/
  | sinkAddressAbsent (address : Nat)
  deriving DecidableEq, Repr

/-- Why the machine gives an instruction no meaning. -/
inductive Refusal where
  /-- Raised by an arm of `exec` whose instruction has no meaning yet; no arm does. Safe. -/
  | notModelled (mnemonic : String)
  deriving DecidableEq, Repr

/-- Sink bytes (20_memory.md R50, R64): the written bytes, addresses strictly rising; an unlisted address is unwritten and
holds no value. -/
abbrev Memory := List Host.Cell

/-- The state of 10_state.md R20, and four fields of the model's own (log 1, 2, 3). -/
structure State where
  /-- `WIDTH`, index 0 (R21). -/
  width : BitVec 32
  /-- `HEIGHT`, index 1 (R22). -/
  height : BitVec 32
  /-- `NCHAN`, index 2 (R23). -/
  nchan : BitVec 32
  /-- `PIXOFF`, index 3 (R24). -/
  pixoff : BitVec 32
  /-- `PADLEN`, index 4 (R25). -/
  padlen : BitVec 33
  /-- `STATUS.ST` (R26). -/
  st : SessionState
  /-- `STATUS.POISON` (R26, R32). -/
  poison : Bool
  /-- `FAULT`, index 6 (R27). -/
  faultCode : BitVec 8
  /-- `ROWCNT`, index 7 (R28). -/
  rowcnt : BitVec 32
  /-- `ROWBUF` (R30), index 0 first. -/
  rowbuf : List Byte
  /-- Sink bytes (R33 item 1). -/
  sink : Memory
  /-- Sink position (R33 item 2). -/
  sinkPos : Nat
  /-- `SinkRelease()` events since reset (R20, R33 item 3). -/
  releases : Nat
  /-- MODEL: the response words given since reset, oldest first (log 3). -/
  responses : List Word64
  /-- MODEL: the transactions the host sends, oldest first (R37 a, b; log 1). -/
  inbox : List Transaction
  /-- MODEL: the counts the sink offers to accept at its next writes, oldest first (R37 c; log 2). -/
  sinkAnswers : List Nat
  /-- MODEL: the number of sink writes so far, argument of the free value `Config.sinkAccept` (log 2). -/
  sinkWrites : Nat
  deriving DecidableEq, Repr

/-- The machine right after reset (10_state.md R36, 70_reset_and_hazards.md R180). `rowbuf` is log 4; `sink` and `sinkPos`
are log 5; the model's own fields are log 1, 2, 3. -/
def State.reset : State :=
  { width := 0
    height := 0
    nchan := 0
    pixoff := 0
    padlen := 0
    st := .unopened
    poison := false
    faultCode := 0
    rowcnt := 0
    rowbuf := []
    sink := []
    sinkPos := 0
    releases := 0
    responses := []
    inbox := []
    sinkAnswers := []
    sinkWrites := 0 }

end Sys2Proof.Machine
end

