-- ==== Sys2Proof/Machine/Operands.lean ====
section
/-! DEFINITION. Operands: the size formulas of 40_config.md, the row address of 20_memory.md R55 and 41_encode.md R127, and
the row's on-disk form (41_encode.md R124 to R126). All arithmetic is exact, on naturals (00_scope.md R12). -/

namespace Sys2Proof.Machine

/-- The channel count is 1, 3 or 4 (00_scope.md R8). -/
abbrev LegalChannels (c : Nat) : Prop := c = 1 ∨ c = 3 ∨ c = 4

/-- `padlen(w, c)` (40_config.md R105). -/
def padLength (w c : Nat) : Nat := ((w * c + 3) / 4) * 4

/-- `pixoff(c)` (40_config.md R106). -/
def pixelOffset (c : Nat) : Nat :=
  Config.fileHeaderSize + Config.dibHeaderSize + (if c = 1 then Config.paletteEntries * Config.paletteEntrySize else 0)

/-- `filesize(w, h, c)` (40_config.md R107). -/
def projectedSize (w h c : Nat) : Nat := padLength w c * h + pixelOffset c

/-- The number of sample bytes of a row, `nsrc` (41_encode.md R120). -/
def sampleCount (s : State) : Nat := s.width.toNat * s.nchan.toNat

/-- On-disk row index of logical row `y` (41_encode.md R127). -/
def diskRow (h y : Nat) : Nat := h - 1 - y

/-- The sink address of the first byte of logical row `y` (41_encode.md R127). -/
def rowAddress (s : State) (y : Nat) : Nat := s.pixoff.toNat + diskRow s.height.toNat y * s.padlen.toNat

/-- Exchange the first and third byte of one pixel group (41_encode.md R125). -/
def swapGroup (g : List Byte) : List Byte :=
  match g with
  | a :: b :: c :: rest => c :: b :: a :: rest
  | g => g

/-- Exchange in each of the first `n` groups of `c` bytes. -/
def swapGroups (c n : Nat) (rb : List Byte) : List Byte :=
  match n with
  | 0 => rb
  | n + 1 => swapGroup (rb.take c) ++ swapGroups c n (rb.drop c)

/-- Channel reorder of a row of `w` pixels of `c` channels (41_encode.md R125). -/
def reorderRow (w c : Nat) (rb : List Byte) : List Byte := if 3 ≤ c then swapGroups c w rb else rb

/-- The permutation of byte indices of 41_encode.md R125: after the reorder `rb[i] = payload[src(i)]`. -/
def sourceIndex (c i : Nat) : Nat :=
  if c < 3 then i
  else if i % c = 0 then i + 2
  else if i % c = 2 then i - 2
  else i

/-- Padding: zero bytes up to length `n` (41_encode.md R126). -/
def padRow (n : Nat) (rb : List Byte) : List Byte := rb ++ List.replicate (n - rb.length) 0

/-- The row buffer after load, reorder and padding (41_encode.md R124 to R126). -/
def rowBuffer (s : State) (payload : List Byte) : List Byte :=
  padRow s.padlen.toNat (reorderRow s.width.toNat s.nchan.toNat payload)

/-- The bytes offered to the sink, `rb[0 .. PADLEN)` (41_encode.md R128). -/
def diskBytes (s : State) (payload : List Byte) : List Byte := (rowBuffer s payload).take s.padlen.toNat

end Sys2Proof.Machine
end

