-- ==== Sys2Proof/Machine/Flags.lean ====
section
/-! DEFINITION. Flags: the `STATUS` word, the error codes, the response word, the saturating counter. -/

namespace Sys2Proof.Machine

/-- The value of `ST` (10_state.md R26). -/
def SessionState.code (st : SessionState) : BitVec 2 :=
  match st with
  | .unopened => 0
  | .opened => 1
  | .closed => 2

/-- `STATUS`: `POISON` in bit 2, `ST` in bits 1:0 (10_state.md R26). -/
def statusWord (s : State) : BitVec 3 := BitVec.ofBool s.poison ++ s.st.code

/-- The numeric code of an error (60_exceptions.md R150). -/
def ErrorKind.code (e : ErrorKind) : BitVec 8 :=
  match e with
  | .ok => 0
  | .unsupportedMode => 1
  | .unsupportedChannelCount => 2
  | .fileTooLarge => 3
  | .sinkUnavailable => 4
  | .rowIndexOutOfRange => 5
  | .shortWrite => 6
  | .badState => 7
  | .illegalCommand => 8

/-- The error of a numeric code; codes above 8 are unused (60_exceptions.md R150). -/
def errorOfCode (n : Nat) : Option ErrorKind :=
  match n with
  | 0 => some .ok
  | 1 => some .unsupportedMode
  | 2 => some .unsupportedChannelCount
  | 3 => some .fileTooLarge
  | 4 => some .sinkUnavailable
  | 5 => some .rowIndexOutOfRange
  | 6 => some .shortWrite
  | 7 => some .badState
  | 8 => some .illegalCommand
  | _ => none

/-- The response word: `ERR` in bits 63:56, `VAL` in bits 55:0 (30_encoding.md R87). -/
def responseWord (e : ErrorKind) (val : BitVec 56) : Word64 := e.code ++ val

/-- `ERR` of a response word. -/
def errOf (r : Word64) : BitVec 8 := r.extractLsb' 56 8

/-- `VAL` of a response word. -/
def valOf (r : Word64) : BitVec 56 := r.extractLsb' 0 56

/-- `min(ROWCNT + 1, 2^32 - 1)` (10_state.md R28). -/
def rowcntNext (n : BitVec 32) : BitVec 32 := BitVec.ofNat 32 (min (n.toNat + 1) 4294967295)

end Sys2Proof.Machine
end

