-- ==== Sys2Proof/Machine/Ops.lean ====
section
/-! DEFINITION. Ops: the sink's bytes, the sink primitives (20_memory.md R60 to R62), register reads, the responses, and the
abort sequence, the block's one trap (60_exceptions.md R161). There is no return from an abort (R163): only reset leaves
`CLOSED`, and `blockReset` stands beside it. -/

namespace Sys2Proof.Machine

/-! ## Sink bytes -/

/-- Read one sink byte; an unwritten one holds no value (20_memory.md R64). The block itself never reads (R63). -/
def Memory.read (m : Memory) (a : Nat) : Option Byte :=
  match m with
  | [] => none
  | (k, v) :: rest => if k = a then some v else Memory.read rest a

/-- Write one sink byte, keeping the addresses strictly rising. -/
def Memory.writeByte (m : Memory) (a : Nat) (v : Byte) : Memory :=
  match m with
  | [] => [(a, v)]
  | (k, w) :: rest =>
    if a < k then (a, v) :: (k, w) :: rest
    else if a = k then (a, v) :: rest
    else (k, w) :: Memory.writeByte rest a v

/-- Write a byte sequence at an address, byte `i` at `a + i` (00_scope.md R13). -/
def Memory.writeBytes (m : Memory) (a : Nat) (bs : List Byte) : Memory :=
  match bs with
  | [] => m
  | b :: rest => Memory.writeBytes (Memory.writeByte m a b) (a + 1) rest

/-- The canonical form: addresses strictly rising, all of them sink addresses (20_memory.md R50). An unlisted address has no
value, so no entry can equal what an unlisted address reads as. -/
abbrev Memory.wf (m : Memory) : Prop :=
  m.Pairwise (fun p q => p.1 < q.1) ∧ ∀ p ∈ m, p.1 < Config.sinkSize

/-- The length of the file: one more than the highest address written, 0 if none (20_memory.md R65). -/
def Memory.fileLength (m : Memory) : Nat :=
  match m with
  | [] => 0
  | (k, _) :: rest => max (k + 1) (Memory.fileLength rest)

/-! ## Sink primitives -/

/-- `SinkSeek(a)`, defined for sink addresses (20_memory.md R60). -/
def sinkSeek (a : Nat) (s : State) : Except Fault State :=
  if a < Config.sinkSize then .ok { s with sinkPos := a } else .error (.sinkAddressAbsent a)

/-- The count the sink offers to accept at its next write: the environment's next answer, a free value when none is listed
(20_memory.md R61; log 2). -/
def sinkOffer (s : State) : Nat :=
  match s.sinkAnswers with
  | [] => Config.sinkAccept s.sinkWrites
  | n :: _ => n

/-- The count accepted of `len` bytes offered: any value in `0 .. len` (20_memory.md R61). -/
def acceptedCount (len : Nat) (s : State) : Nat := min (sinkOffer s) len

/-- `SinkWrite(bs)` (20_memory.md R61): the accepted prefix is stored at the position, which advances by the count. -/
def sinkWrite (bs : List Byte) (s : State) : Except Fault (Nat × State) :=
  if s.sinkPos + acceptedCount bs.length s ≤ Config.sinkSize then
    .ok (acceptedCount bs.length s,
      { s with
        sink := s.sink.writeBytes s.sinkPos (bs.take (acceptedCount bs.length s))
        sinkPos := s.sinkPos + acceptedCount bs.length s
        sinkAnswers := s.sinkAnswers.tail
        sinkWrites := s.sinkWrites + 1 })
  else .error (.sinkAddressAbsent (s.sinkPos + acceptedCount bs.length s - 1))

/-- `SinkRelease()`: an event (20_memory.md R62). -/
def sinkRelease (s : State) : State := { s with releases := s.releases + 1 }

/-! ## Registers -/

/-- `x[i]`, zero-extended to the 56 bits of `VAL` (10_state.md R29). -/
def readReg (r : Reg) (s : State) : BitVec 56 :=
  match r with
  | .width => s.width.setWidth 56
  | .height => s.height.setWidth 56
  | .nchan => s.nchan.setWidth 56
  | .pixoff => s.pixoff.setWidth 56
  | .padlen => s.padlen.setWidth 56
  | .status => (statusWord s).setWidth 56
  | .fault => s.faultCode.setWidth 56
  | .rowcnt => s.rowcnt.setWidth 56

/-! ## Responses, errors and the abort sequence -/

/-- The state with one more response on the output history. -/
def answer (e : ErrorKind) (val : BitVec 56) (s : State) : State :=
  { s with responses := s.responses ++ [responseWord e val] }

/-- `respond(err, val)` (00_scope.md R14, 30_encoding.md R87). -/
def respond (e : ErrorKind) (val : BitVec 56) (s : State) : Host.Outcome State Fault Refusal := .next (answer e val s)

/-- `raise E`, the non-aborting errors: the response and nothing else (60_exceptions.md R162). -/
def raiseError (e : ErrorKind) (s : State) : Host.Outcome State Fault Refusal := respond e 0 s

/-- `abort(E)`, the block's trap entry (60_exceptions.md R161). -/
def abortSession (e : ErrorKind) (s : State) : Host.Outcome State Fault Refusal :=
  respond e 0 (sinkRelease { s with faultCode := e.code, poison := true, st := .closed })

/-- Reset applied in any state (70_reset_and_hazards.md R180, 10_state.md R36): every register at its reset value, a new
output history, the sink untouched. No step performs it (log 8). -/
def blockReset (s : State) : State :=
  { State.reset with
    sink := s.sink
    sinkPos := s.sinkPos
    inbox := s.inbox
    sinkAnswers := s.sinkAnswers
    sinkWrites := s.sinkWrites }

end Sys2Proof.Machine
end

