-- ==== Sys2Proof/Machine/Configure.lean ====
section
/-! DEFINITION. Configure: `SETW`, `SETH`, `SETC`, `BIND` (40_config.md R100 to R104). -/

namespace Sys2Proof.Machine

/-- The family's admission: the command takes effect only in `UNOPENED`, else `BadState` and nothing changes
(40_config.md R100, 42_session.md R142). -/
def whenUnopened (s : State) (effect : State) : Host.Outcome State Fault Refusal :=
  if s.st = .unopened then respond .ok 0 effect else raiseError .badState s

/-- `SETW` (40_config.md R101). -/
def execSetw (imm : Word32) (s : State) : Host.Outcome State Fault Refusal :=
  whenUnopened s { s with width := imm }

/-- `SETH` (40_config.md R102). -/
def execSeth (imm : Word32) (s : State) : Host.Outcome State Fault Refusal :=
  whenUnopened s { s with height := imm }

/-- `SETC`: any value is staged; `BIND` checks it (40_config.md R103). -/
def execSetc (imm : Word32) (s : State) : Host.Outcome State Fault Refusal :=
  whenUnopened s { s with nchan := imm }

/-- The state `BIND` leaves on success, before its response (40_config.md R104). -/
def boundState (s : State) : State :=
  { s with
    pixoff := BitVec.ofNat 32 (pixelOffset s.nchan.toNat)
    padlen := BitVec.ofNat 33 (padLength s.width.toNat s.nchan.toNat)
    rowcnt := 0
    st := .opened }

/-- `BIND` (40_config.md R104): state, then channel count, then file size, on exact arithmetic. -/
def execBind (s : State) : Host.Outcome State Fault Refusal :=
  if s.st ≠ .unopened then raiseError .badState s
  else if ¬ LegalChannels s.nchan.toNat then raiseError .unsupportedChannelCount s
  else if Config.maxFile ≤ projectedSize s.width.toNat s.height.toNat s.nchan.toNat then raiseError .fileTooLarge s
  else respond .ok 0 (boundState s)

end Sys2Proof.Machine
end

