-- ==== Sys2Proof/Machine/Encode.lean ====
section
/-! DEFINITION. Encode: `ENC`, one row to its on-disk form and place (41_encode.md R120 to R129). -/

namespace Sys2Proof.Machine

/-- The result stage (41_encode.md R129): a full write counts the row, a short one aborts the session. -/
def finishRow (n : Nat) (s : State) : Host.Outcome State Fault Refusal :=
  if n = s.padlen.toNat then respond .ok 0 { s with rowcnt := rowcntNext s.rowcnt } else abortSession .shortWrite s

/-- Load, reorder, pad, position, write, result (41_encode.md R124 to R129). -/
def writeRow (row : Word32) (payload : List Byte) (s : State) : Host.Outcome State Fault Refusal :=
  match sinkSeek (rowAddress s row.toNat) { s with rowbuf := rowBuffer s payload } with
  | .error f => .fault f
  | .ok s1 =>
    match sinkWrite (diskBytes s payload) s1 with
    | .error f => .fault f
    | .ok (n, s2) => finishRow n s2

/-- `ENC` (41_encode.md R120): state, row index, payload length, then the write. -/
def execEnc (row : Word32) (payload : List Byte) (s : State) : Host.Outcome State Fault Refusal :=
  if s.st ≠ .opened then raiseError .badState s
  else if s.height.toNat ≤ row.toNat then abortSession .rowIndexOutOfRange s
  else if payload.length ≠ sampleCount s then raiseError .illegalCommand s
  else writeRow row payload s

end Sys2Proof.Machine
end

