-- ==== Sys2Proof/Machine/Session.lean ====
section
/-! DEFINITION. Session: `REL` and `RD` (42_session.md R140, R141). -/

namespace Sys2Proof.Machine

/-- `REL` (42_session.md R140): refused in `UNOPENED`, a release in `OPEN`, a no-op success in `CLOSED`. -/
def execRel (s : State) : Host.Outcome State Fault Refusal :=
  match s.st with
  | .unopened => raiseError .badState s
  | .opened => respond .ok 0 { sinkRelease s with st := .closed }
  | .closed => respond .ok 0 s

/-- `RD` (42_session.md R141): admitted in every state, changes nothing. -/
def execRd (r : Reg) (s : State) : Host.Outcome State Fault Refusal := respond .ok (readReg r s) s

end Sys2Proof.Machine
end

