-- ==== Sys2Proof/Machine/Dispatch.lean ====
section
/-! DEFINITION. Dispatch: one arm for each command. -/

namespace Sys2Proof.Machine

def exec (i : Instr) (s : State) : Host.Outcome State Fault Refusal :=
  match i with
  | .setw imm => Sys2Proof.Machine.execSetw imm s
  | .seth imm => Sys2Proof.Machine.execSeth imm s
  | .setc imm => Sys2Proof.Machine.execSetc imm s
  | .bind => Sys2Proof.Machine.execBind s
  | .enc row payload => Sys2Proof.Machine.execEnc row payload s
  | .rel => Sys2Proof.Machine.execRel s
  | .rd reg => Sys2Proof.Machine.execRd reg s

end Sys2Proof.Machine
end

