-- ==== Sys2Proof/Machine/Step.lean ====
section
/-! DEFINITION. Step: take the host's next transaction, decode it, run it (30_encoding.md R80, R88; 60_exceptions.md R160). -/

namespace Sys2Proof.Machine

/-- One step. With no transaction in hand the block does nothing and keeps its state (60_exceptions.md R169). A transaction
is taken off the host's list; an illegal one is answered `IllegalCommand` and changes nothing else (30_encoding.md R85). -/
def step (s : State) : Host.Outcome State Fault Refusal :=
  match s.inbox with
  | [] => .next s
  | t :: rest =>
    match decode t with
    | .ok i => exec i { s with inbox := rest }
    | .error _ => raiseError .illegalCommand { s with inbox := rest }

/-- The state with a table row's word as the next transaction the host sends (log 1). -/
def State.withFetchWord (s : State) (nbits w : Nat) : State :=
  { s with inbox := tableTransaction nbits w :: s.inbox }

end Sys2Proof.Machine
end

