-- ==== Sys2Proof/Machine/Layout.lean ====
section
/-! DEFINITION. Layout: the address map of the sink (20_memory.md R51 to R56, R65). The header bytes are context, written by
the Header Builder, not by the block (log 12). -/

namespace Sys2Proof.Machine

/-- What the Header Builder is given besides the geometry: the two resolution fields, 0 unless supplied
(20_memory.md R53). -/
structure Resolution where
  horizontal : Word32
  vertical : Word32
  deriving DecidableEq, Repr

/-- The resolution of a description that supplies none (20_memory.md R53). -/
def Resolution.absent : Resolution := { horizontal := 0, vertical := 0 }

/-- The 14 bytes of the file header, addresses 0 to 13 (20_memory.md R52). -/
def fileHeader (w h c : Nat) : List Byte :=
  [0x42, 0x4D] ++ leBytes 4 (projectedSize w h c) ++ leBytes 2 0 ++ leBytes 2 0 ++ leBytes 4 (pixelOffset c)

/-- Palette colours the DIB header announces (20_memory.md R53). -/
def colorsUsed (c : Nat) : Nat := if c = 1 then 256 else 0

/-- The 40 bytes of the DIB header, addresses 14 to 53 (20_memory.md R53; the image size is the pixel count,
90_conflicts.md C2). -/
def dibHeader (w h c : Nat) (res : Resolution) : List Byte :=
  leBytes 4 Config.dibHeaderSize ++ leBytes 4 w ++ leBytes 4 h ++ leBytes 2 1 ++ leBytes 2 (8 * c) ++ leBytes 4 0 ++
  leBytes 4 (w * h) ++ leBytes 4 res.horizontal.toNat ++ leBytes 4 res.vertical.toNat ++
  leBytes 4 (colorsUsed c) ++ leBytes 4 (colorsUsed c)

/-- Entries `i` of the palette from `start` on, `n` of them: `i, i, i, 255` (20_memory.md R54). -/
def paletteFrom (start n : Nat) : List Byte :=
  match n with
  | 0 => []
  | n + 1 =>
    [BitVec.ofNat 8 start, BitVec.ofNat 8 start, BitVec.ofNat 8 start, 255] ++ paletteFrom (start + 1) n

/-- The palette, present for one channel only (20_memory.md R54). -/
def palette (c : Nat) : List Byte := if c = 1 then paletteFrom 0 Config.paletteEntries else []

/-- The header region `[0, PIXOFF)` (20_memory.md R51). -/
def headerRegion (w h c : Nat) (res : Resolution) : List Byte := fileHeader w h c ++ dibHeader w h c res ++ palette c

/-- The Header Builder's write: the header region at the sink's current position, which moves behind it. The position must be
0, a duty nobody checks (10_state.md R33 item 2, 70_reset_and_hazards.md R182 item 3, R186). An act of the environment, before
`BIND`. -/
def writeHeaders (w h c : Nat) (res : Resolution) (s : State) : Except Fault State :=
  if s.sinkPos + (headerRegion w h c res).length ≤ Config.sinkSize then
    .ok { s with
      sink := s.sink.writeBytes s.sinkPos (headerRegion w h c res)
      sinkPos := s.sinkPos + (headerRegion w h c res).length }
  else .error (.sinkAddressAbsent (s.sinkPos + (headerRegion w h c res).length - 1))

/-- `FILESIZE = PIXOFF + PADLEN x HEIGHT` of a bound session (20_memory.md R51). -/
def fileSize (s : State) : Nat := s.pixoff.toNat + s.padlen.toNat * s.height.toNat

/-- `rowaddr(r)` of on-disk row `r` (20_memory.md R55). -/
def diskRowAddress (s : State) (r : Nat) : Nat := s.pixoff.toNat + r * s.padlen.toNat

/-- Sink bytes `a .. a + n - 1` as the sink holds them, `none` for an unwritten one (20_memory.md R64). -/
def readRange (m : Memory) (a n : Nat) : List (Option Byte) := (List.range n).map fun i => m.read (a + i)

/-- The address pairs of a byte sequence laid out from an address on. -/
def cellsFrom (a : Nat) (bs : List Byte) : Memory :=
  match bs with
  | [] => []
  | b :: rest => (a, b) :: cellsFrom (a + 1) rest

end Sys2Proof.Machine
end

