-- ==== Sys2Proof/Machine/HostSequences.lean ====
section
/-! DEFINITION. HostSequences: the pseudo-instructions of 30_encoding.md R90 to R96, sequences the host runs on the block
(log 13), and the session that runs them, context
(log 19 to 23). No step performs them; each is written from steps. -/

namespace Sys2Proof.Machine

/-- The host sends one command and the block takes it (30_encoding.md R80). -/
def sendCommand (i : Instr) (s : State) : Host.Outcome State Fault Refusal := step { s with inbox := encode i :: s.inbox }

/-- The last response was `OK`; also when none has been given. -/
def lastWasOk (s : State) : Bool :=
  match s.responses.getLast? with
  | some r => errOf r == 0
  | none => true

/-- Send commands in order, stopping at the first response that is not `OK` (30_encoding.md section 8). -/
def runCommands (is : List Instr) (s : State) : Host.Outcome State Fault Refusal :=
  match is with
  | [] => .next s
  | i :: rest =>
    match sendCommand i s with
    | .next t => if lastWasOk t then runCommands rest t else .next t
    | .fault f => .fault f
    | .refused r => .refused r

/-- What a session-level operation reports. -/
inductive SessionResult where
  | success
  /-- a typed failure (30_encoding.md R87, R91) -/
  | failed (e : ErrorKind)
  /-- fewer than `HEIGHT` rows at close, under the policy that treats this as an error (70_reset_and_hazards.md R192); the
  spec names no error kind for it (log 13) -/
  | underwritten
  deriving DecidableEq, Repr

/-- The first response that is not `OK`, as the session reports it (30_encoding.md R91). -/
def firstFailure (rs : List Word64) : SessionResult :=
  match rs with
  | [] => .success
  | r :: rest =>
    match errorOfCode (errOf r).toNat with
    | some .ok => firstFailure rest
    | some e => .failed e
    | none => firstFailure rest

/-- `SESSION_RESULT` of the sequence that led from `s` to `t` (30_encoding.md R91). -/
def sessionResult (s t : State) : SessionResult := firstFailure (t.responses.drop s.responses.length)

/-- `CONFIG w, h, c` (30_encoding.md R90). -/
def configCommands (w h c : Word32) : List Instr := [.setw w, .seth h, .setc c, .bind]

/-- Row `y` of a tile buffer, row-major (30_encoding.md R94). -/
def bufferRow (w c : Nat) (buf : List Byte) (y : Nat) : List Byte := (buf.drop (y * w * c)).take (w * c)

/-- `REPLAY buf`: every logical row, top row first (30_encoding.md R94). -/
def replayCommands (w h c : Nat) (buf : List Byte) : List Instr :=
  (List.range h).map fun y => .enc (BitVec.ofNat 32 y) (bufferRow w c buf y)

/-- The block's part of `CLOSE_SESSION`: from `OPEN`, with a tile buffer, the replay, not stopping the sequence on its
failure; then `REL`. From any other state `REL` alone: from `CLOSED` an idempotent no-op, no replay
(30_encoding.md R95, 42_session.md R140). -/
def closeSequence (tileBuffer : Option (List Byte)) (s : State) : Host.Outcome State Fault Refusal :=
  if s.st = .opened then
    match tileBuffer with
    | none => sendCommand .rel s
    | some buf =>
      match runCommands (replayCommands s.width.toNat s.height.toNat s.nchan.toNat buf) s with
      | .next t => sendCommand .rel t
      | .fault f => .fault f
      | .refused r => .refused r
  else sendCommand .rel s

/-- The result of a close that led from `s` to `t`: the first failure (30_encoding.md R95), then, of a close from `OPEN`, the
session's check of `ROWCNT` under the open parameter `UNDERWRITE_POLICY` (70_reset_and_hazards.md R192). DEDUCED (log 19): the
check is not made on a close from `CLOSED`, which R95 and 90_conflicts.md C5 make a no-op success. -/
def closeResult (policy : UnderwritePolicy) (s t : State) : SessionResult :=
  if sessionResult s t = .success ∧ s.st = .opened ∧ policy = .error ∧ t.rowcnt.toNat < t.height.toNat then .underwritten
  else sessionResult s t

/-! ## The session: the block, and what the session keeps beside it -/

/-- The session's side (00_scope.md R5): the block it drives, whether tiling was requested at open, and the tile buffer. These
belong to other components and are no state of the block (10_state.md R37). -/
structure HostSession where
  block : State
  tiled : Bool
  /-- row-major by (y, x, channel); empty when there is none (30_encoding.md R94) -/
  tileBuffer : List Byte
  deriving DecidableEq, Repr

/-- Where a session has no next step, for a call the spec gives no result. -/
inductive SessionStop where
  /-- the machine stopped -/
  | machine (f : Fault)
  /-- `write_tile` on a session opened without tiling, or `write_scanline` on one opened with it: undefined, so a session
  model is stuck (70_reset_and_hazards.md R190, 93_implementation_defined.md U2). Safe. -/
  | mixedPaths
  /-- a tile that is not inside the image: undefined; no clipping, no wrapping (93_implementation_defined.md U1). Safe. -/
  | tileOutsideImage
  /-- `z` other than 0, which `write_tile` does not accept (30_encoding.md R96); the spec says nothing of such a call. Safe. -/
  | tileLayer
  /-- converted tile samples of another number than the tile holds, which the conversion never gives (30_encoding.md R92);
  the spec says nothing of such a call (log 20). Safe. -/
  | tileSampleCount
  deriving DecidableEq, Repr

/-- What a session-level call ends in: the session after it and what it reports. -/
abbrev SessionOutcome := Host.Outcome (HostSession × SessionResult) SessionStop Refusal

/-- A sequence of commands run for a session `h`: its block moves on, and `result` says what is reported of it. -/
def HostSession.run (h : HostSession) (o : Host.Outcome State Fault Refusal) (result : State → SessionResult) :
    SessionOutcome :=
  match o with
  | .next t => .next ({ h with block := t }, result t)
  | .fault f => .fault (.machine f)
  | .refused r => .refused r

/-- What `open` is given (30_encoding.md R93): the geometry, whether a second image or mip level is asked for, whether tiling
is requested, the resolution of the headers. -/
structure Description where
  width : Word32
  height : Word32
  nchannels : Word32
  multiImage : Bool
  tiling : Bool
  resolution : Resolution
  deriving DecidableEq, Repr

/-- The session's own checks, in the order of 30_encoding.md R93; `sinkAvailable` is the environment's answer to acquiring
the sink. -/
def openChecks (d : Description) (sinkAvailable : Bool) : SessionResult :=
  if ¬ LegalChannels d.nchannels.toNat then .failed .unsupportedChannelCount
  else if d.multiImage then .failed .unsupportedMode
  else if Config.maxFile ≤ projectedSize d.width.toNat d.height.toNat d.nchannels.toNat then .failed .fileTooLarge
  else if ¬ sinkAvailable then .failed .sinkUnavailable
  else .success

/-- The tile buffer of a session just opened: zero-initialized, one byte for each sample, if tiling was requested
(30_encoding.md R93, R94). -/
def freshTileBuffer (d : Description) : List Byte :=
  if d.tiling then List.replicate (d.width.toNat * d.height.toNat * d.nchannels.toNat) 0 else []

/-- `OPEN_SESSION desc` on the block `s`: on success of the checks the Header Builder writes its region, the tile buffer is
allocated, then `CONFIG` (30_encoding.md R93). On a failure of a check nothing is done and no session is produced: the block
comes back as it was. `open` is allowed only in `UNOPENED`; elsewhere it is refused with `BadState` before anything is done
(93_implementation_defined.md U6; log 13). DESIGN CHOICE (log 21): a description with a width or height of `2^31` or more,
outside 00_scope.md R9, is met by no check of its own; where its size passes, the headers are written and the buffer allocated
before `CONFIG` fails with `IllegalCommand`, and both stay. DESIGN CHOICE (log 23): after a refused open or a failed check the
session that comes back has `tiled = false` and no buffer, whatever tiling was requested then or before, so `writeTile` on it
stops as `mixedPaths`; after an open that fails at `CONFIG` it is as requested. -/
def openSession (d : Description) (sinkAvailable : Bool) (s : State) : SessionOutcome :=
  if s.st ≠ .unopened then .next ({ block := s, tiled := false, tileBuffer := [] }, .failed .badState)
  else if openChecks d sinkAvailable ≠ .success then
    .next ({ block := s, tiled := false, tileBuffer := [] }, openChecks d sinkAvailable)
  else
    match writeHeaders d.width.toNat d.height.toNat d.nchannels.toNat d.resolution s with
    | .error f => .fault (.machine f)
    | .ok s1 =>
      HostSession.run { block := s1, tiled := d.tiling, tileBuffer := freshTileBuffer d }
        (runCommands (configCommands d.width d.height d.nchannels) s1) (sessionResult s1)

/-- `WRITE_SCANLINE y, src` after the external conversion of `src` to `samples` (30_encoding.md R92): one `ENC`, which the
block refuses outside `OPEN`. Stuck on a session opened with tiling (70_reset_and_hazards.md R190). -/
def writeScanline (y : Word32) (samples : List Byte) (h : HostSession) : SessionOutcome :=
  if h.tiled then .fault .mixedPaths
  else h.run (runCommands [.enc y samples] h.block) (sessionResult h.block)

/-- A byte sequence put over the bytes of another from index `a` on. -/
def overwriteAt (buf : List Byte) (a : Nat) (bs : List Byte) : List Byte :=
  buf.take a ++ bs ++ buf.drop (a + bs.length)

/-- The samples of a tile of `n` rows of `tw` pixels copied to `(x, y)` of a buffer of rows of `w` pixels of `c` channels, row
after row (30_encoding.md R94, R96). -/
def copyTile (w c x y tw n : Nat) (samples buf : List Byte) : List Byte :=
  match n with
  | 0 => buf
  | n + 1 =>
    copyTile w c x (y + 1) tw n (samples.drop (tw * c))
      (overwriteAt buf ((y * w + x) * c) (samples.take (tw * c)))

/-- `write_tile` of a tile of `tw x th` pixels at `(x, y)`, layer `z`, after the external conversion (30_encoding.md R96): no
block command; it fills the tile buffer. Allowed only in `OPEN`, refused with `BadState` elsewhere
(93_implementation_defined.md U6). Context: the tile buffer is another component (00_scope.md R6; log 20). DESIGN CHOICE
(log 20): the tests are made in the order mixed paths, state, layer, place, number of samples, so a tile outside the image is
refused with `BadState` outside `OPEN` and stuck in it; and a tile of no columns or no rows at `x = WIDTH` or `y = HEIGHT` lies
inside the image, so it succeeds and copies nothing. -/
def writeTile (x y z tw th : Nat) (samples : List Byte) (h : HostSession) : SessionOutcome :=
  if h.tiled = false then .fault .mixedPaths
  else if h.block.st ≠ .opened then .next (h, .failed .badState)
  else if z ≠ 0 then .fault .tileLayer
  else if h.block.width.toNat < x + tw ∨ h.block.height.toNat < y + th then .fault .tileOutsideImage
  else if samples.length ≠ tw * th * h.block.nchan.toNat then .fault .tileSampleCount
  else
    .next ({ h with
      tileBuffer := copyTile h.block.width.toNat h.block.nchan.toNat x y tw th samples h.tileBuffer }, .success)

/-- `CLOSE_SESSION` (30_encoding.md R95): the close of the block, with the replay if tiling was active, which then releases
the buffer (R94). DESIGN CHOICE (log 22): the buffer is released by every close, also after a replay that failed and by a close
refused with `BadState` in `UNOPENED`, where the spec gives its release after a replay only. -/
def closeSession (policy : UnderwritePolicy) (h : HostSession) : SessionOutcome :=
  HostSession.run { h with tileBuffer := [] } (closeSequence (if h.tiled then some h.tileBuffer else none) h.block)
    (closeResult policy h.block)

end Sys2Proof.Machine
end

