-- ==== Sys2Proof/Safety.lean ====
section
/-! DEFINITION. Safety: what claims are stated with: the invariants of 10_state.md R34, the end of a run and a complete file
(70_reset_and_hazards.md R197, 20_memory.md R65). -/

namespace Sys2Proof.Machine

/-- The invariants of 10_state.md R34 (its items 1 to 6; item 7 is the type of `st`), the release count of R33 item 3, and
the canonical form of the sink bytes. -/
structure SessionInv (s : State) : Prop where
  /-- item 1 -/
  unopened : s.st = .unopened →
    s.pixoff = 0 ∧ s.padlen = 0 ∧ s.poison = false ∧ s.faultCode = 0 ∧ s.rowcnt = 0 ∧ s.releases = 0
  /-- item 2 -/
  bound : s.st ≠ .unopened →
    LegalChannels s.nchan.toNat ∧ s.pixoff.toNat = pixelOffset s.nchan.toNat ∧
    s.padlen.toNat = padLength s.width.toNat s.nchan.toNat
  /-- item 3, and no release yet (R33 item 3) -/
  opened : s.st = .opened → s.poison = false ∧ s.faultCode = 0 ∧ s.releases = 0
  /-- item 4 -/
  fits : s.st ≠ .unopened → s.pixoff.toNat + s.padlen.toNat * s.height.toNat < Config.maxFile
  /-- item 5 -/
  closed : s.st = .closed →
    ((s.poison = true ∧ (s.faultCode = 5 ∨ s.faultCode = 6)) ∨ (s.poison = false ∧ s.faultCode = 0)) ∧ s.releases = 1
  /-- item 6 -/
  widthBound : s.width.toNat < Config.dimensionLimit
  heightBound : s.height.toNat < Config.dimensionLimit
  padlenAligned : s.padlen.toNat % 4 = 0
  /-- the model's own: the canonical form of the sink bytes -/
  sinkWf : s.sink.wf

/-- Two states that differ in nothing but the sink's bytes and position. -/
def AgreeOffSink (s t : State) : Prop := { t with sink := s.sink, sinkPos := s.sinkPos } = s

/-- A run is finished when the block is in `CLOSED`, or in `UNOPENED` and the host sends nothing more
(70_reset_and_hazards.md R197). -/
def Finished (s : State) : Prop := s.st = .closed ∨ (s.st = .unopened ∧ s.inbox = [])

/-- A finished run is clean when `FAULT = 0` (70_reset_and_hazards.md R197). -/
def Clean (s : State) : Prop := Finished s ∧ s.faultCode = 0

/-- The next write of `len` bytes is full: a premise about the environment (20_memory.md R61). -/
def FullWrite (len : Nat) (s : State) : Prop := len ≤ sinkOffer s

/-- The permission matrix of 42_session.md R142: which command is admitted in which state. -/
def admits (st : SessionState) (i : Instr) : Bool :=
  match i with
  | .setw _ => st == .unopened
  | .seth _ => st == .unopened
  | .setc _ => st == .unopened
  | .bind => st == .unopened
  | .enc _ _ => st == .opened
  | .rel => st != .unopened
  | .rd _ => true

/-- Every byte of `bs` stands in the sink from address `a` on. -/
def BytesAt (m : Memory) (a : Nat) (bs : List Byte) : Prop := ∀ i, i < bs.length → m.read (a + i) = bs[i]?

/-- Row `y` of the bound image stands at its place in its on-disk form (20_memory.md R55, R56). -/
def RowWritten (s : State) (y : Nat) (payload : List Byte) : Prop := BytesAt s.sink (rowAddress s y) (diskBytes s payload)

/-- The header bytes of the session's geometry (20_memory.md R51 to R54, 70_reset_and_hazards.md R182 item 3). -/
def sessionHeaders (s : State) (res : Resolution) : List Byte :=
  headerRegion s.width.toNat s.height.toNat s.nchan.toNat res

/-- The complete file of a picture given as its rows, top row first: the headers, then the rows bottom-up
(20_memory.md R51 to R56). -/
def pictureFile (s : State) (res : Resolution) (rows : List (List Byte)) : List Byte :=
  sessionHeaders s res ++ (rows.reverse.map (diskBytes s)).flatten

/-- `ENC` commands for the rows given, each with its logical index. -/
def encCommands (rows : List (Word32 × List Byte)) : List Instr := rows.map fun r => .enc r.1 r.2

/-- The samples last sent for row `y` in a sequence of rows. -/
def lastSent (rows : List (Word32 × List Byte)) (y : Nat) : Option (List Byte) :=
  match rows with
  | [] => none
  | r :: rest =>
    match lastSent rest y with
    | some p => some p
    | none => if r.1.toNat = y then some r.2 else none

/-- The rows that a list of transactions sends to a session bound as `s` is: its `ENC` commands with a payload of the required
length, in order; every other transaction sends none (41_encode.md R123, 42_session.md R142). -/
def rowsSent (s : State) (ts : List Transaction) : List (Word32 × List Byte) :=
  match ts with
  | [] => []
  | t :: rest =>
    match decode t with
    | .ok (.enc row payload) =>
      if payload.length = sampleCount s then (row, payload) :: rowsSent s rest else rowsSent s rest
    | _ => rowsSent s rest

/-- `k` steps of the machine, stopping at a fault or refusal. -/
def runSteps (k : Nat) (s : State) : Host.Outcome State Fault Refusal := Sys2Proof.core.run k s

/-- A state as a run starts it: the block at reset, the sink's bytes and position, the host's transactions and the sink's
answers as the environment has them (70_reset_and_hazards.md R180; 10_state.md R37). -/
def StartsRun (s : State) : Prop := blockReset s = s

end Sys2Proof.Machine
end

