-- ==== Sys2Proof/Certificates/Slice0/Obligations.lean ====
section
/-! DEFINITION. Statements about the machine, from the numbered rules of spec/. -/

open Sys2Proof Sys2Proof.Machine

/-! ## Encoding -/

/-- 95_test_vectors.md section 2.1: words written out there, and what they decode as. -/
def Obligations.SpecWordsDecodeAsListed : Prop :=
  decode ⟨0x0100000000000002, []⟩ = .ok (.setw 2) ∧
  decode ⟨0x010000007FFFFFFF, []⟩ = .ok (.setw 2147483647) ∧
  decode ⟨0x0100000080000000, []⟩ = .error .dimensionTooLarge ∧
  decode ⟨0x0200000000000003, []⟩ = .ok (.seth 3) ∧
  decode ⟨0x02000000FFFFFFFF, []⟩ = .error .dimensionTooLarge ∧
  decode ⟨0x03000000FFFFFFFF, []⟩ = .ok (.setc 4294967295) ∧
  decode ⟨0x0400000000000000, []⟩ = .ok .bind ∧
  decode ⟨0x0400000000000001, []⟩ = .error .immediateNotZero ∧
  decode ⟨0x0500000000000000, [0x01, 0x02, 0x03]⟩ = .ok (.enc 0 [0x01, 0x02, 0x03]) ∧
  decode ⟨0x05000000FFFFFFFF, []⟩ = .ok (.enc 4294967295 []) ∧
  decode ⟨0x0600000000000000, []⟩ = .ok .rel ∧
  decode ⟨0x0600000000000001, []⟩ = .error .immediateNotZero ∧
  decode ⟨0x0700000000000007, []⟩ = .ok (.rd .rowcnt) ∧
  decode ⟨0x0700000000000008, []⟩ = .error .registerIndexTooLarge ∧
  decode ⟨0x0000000000000000, []⟩ = .error .unknownOpcode ∧
  decode ⟨0x0800000000000000, []⟩ = .error .unknownOpcode ∧
  decode ⟨0xFF00000000000000, []⟩ = .error .unknownOpcode ∧
  decode ⟨0x0100000100000002, []⟩ = .error .reservedNotZero ∧
  decode ⟨0x0100000000000002, [0x00]⟩ = .error .payloadNotEmpty ∧
  decodeFrame [0x02, 0x00, 0x00, 0x00, 0x00, 0x00, 0x00, 0x01] = .ok (.setw 2)

/-- Every well-formed command, with every operand, decodes back from its encoding, over the byte-wide transport too. -/
def Obligations.DecodeOfEncodeIsTheCommand : Prop :=
  ∀ i : Instr, i.WellFormed → decode (encode i) = .ok i ∧ decodeFrame (frameOf (encode i)) = .ok i

/-- No transaction is read as a command other than the one it encodes, and what the decoder accepts is well formed. -/
def Obligations.EncodeOfDecodedIsTheTransaction : Prop :=
  ∀ (t : Transaction) (i : Instr), decode t = .ok i → i.WellFormed ∧ encode i = t

/-- 30_encoding.md R83: a word spells the command of a row exactly when it matches the row, the rows are disjoint, and a word
that matches no row is illegal. -/
def Obligations.OpcodeTableSpellsTheCommands : Prop :=
  (∀ t i, decode t = .ok i → ∃ r ∈ opcodeTable, r.mnemonic = i.mnemonic ∧ r.spells t.word = true) ∧
  (∀ t, ∀ r ∈ opcodeTable, r.spells t.word = true → (r.takesPayload = true ∨ t.payload = []) →
    ∃ i, decode t = .ok i ∧ i.mnemonic = r.mnemonic ∧ i.immediate = immOf t.word) ∧
  (∀ w, ∀ r ∈ opcodeTable, ∀ q ∈ opcodeTable, r.spells w = true → q.spells w = true → r = q) ∧
  (∀ t, (∀ r ∈ opcodeTable, r.spells t.word = false) → ∃ e, decode t = .error e)

/-- 30_encoding.md R85: exactly the six cases are illegal; cases 1 to 5 are exactly "the word matches no row"; and an illegal
transaction does nothing but produce the response `IllegalCommand`, in every state. -/
def Obligations.IllegalTransactionsAreTheSixCases : Prop :=
  (∀ t, Illegal t ↔ ∃ e, decode t = .error e) ∧
  (∀ w, Illegal ⟨w, []⟩ ↔ ∀ r ∈ opcodeTable, r.spells w = false) ∧
  (∀ s t rest, s.inbox = t :: rest → Illegal t →
    step s = .next { s with inbox := rest, responses := s.responses ++ [0x0800000000000000] })

/-- 30_encoding.md R81: the fields of the command word, `RSV` zero in every legal one, and the byte order of the word on a
byte-wide transport. -/
def Obligations.CommandWordFieldsAndByteOrder : Prop :=
  ∀ (op : BitVec 8) (rsv : BitVec 24) (imm : Word32) (p : List Byte),
    (opOf (joinWord op rsv imm) = op ∧ rsvOf (joinWord op rsv imm) = rsv ∧ immOf (joinWord op rsv imm) = imm) ∧
    (∀ i, (joinWord op rsv imm).getLsbD i =
      if i < 32 then imm.getLsbD i else if i < 56 then rsv.getLsbD (i - 32) else op.getLsbD (i - 56)) ∧
    (rsv ≠ 0 → ∃ e, decode ⟨joinWord op rsv imm, p⟩ = .error e) ∧
    frameOf ⟨joinWord op rsv imm, p⟩ =
      [imm.extractLsb' 0 8, imm.extractLsb' 8 8, imm.extractLsb' 16 8, imm.extractLsb' 24 8,
        rsv.extractLsb' 0 8, rsv.extractLsb' 8 8, rsv.extractLsb' 16 8, op] ++ p ∧
    transactionOfFrame (frameOf ⟨joinWord op rsv imm, p⟩) = some ⟨joinWord op rsv imm, p⟩

/-- 30_encoding.md R87, and the codes of 60_exceptions.md R150 that the block can answer with: one transaction is taken and
answered by one word; `VAL` is the register's value for `RD` and 0 otherwise; `ERR` is one of 0, 2, 3, 5, 6, 7, 8; on a
byte-wide transport the word goes out little-endian. -/
def Obligations.EveryTransactionGetsOneResponse : Prop :=
  (∀ s t tr rest, s.inbox = tr :: rest → step s = .next t →
    t.inbox = rest ∧ ∃ r, t.responses = s.responses ++ [r] ∧
      (errOf r).toNat ∈ [0, 2, 3, 5, 6, 7, 8] ∧
      (∀ reg, decode tr = .ok (.rd reg) → errOf r = 0 ∧ valOf r = readReg reg s) ∧
      ((∀ reg, decode tr ≠ .ok (.rd reg)) → valOf r = 0)) ∧
  (∀ r : Word64, leBytes 8 r.toNat =
    [r.extractLsb' 0 8, r.extractLsb' 8 8, r.extractLsb' 16 8, r.extractLsb' 24 8,
      r.extractLsb' 32 8, r.extractLsb' 40 8, r.extractLsb' 48 8, r.extractLsb' 56 8]) ∧
  (∀ r : Word64, r = (errOf r ++ valOf r : BitVec (8 + 56)))

/-! ## Configuration -/

/-- 40_config.md R101: `SETW`, in each state, and the words of its opcode: an illegal one is answered `IllegalCommand`. -/
def Obligations.SetwSetsTheWidth : Prop :=
  (∀ (imm : Word32) (s : State), s.st = .unopened →
    exec (.setw imm) s = .next { s with width := imm, responses := s.responses ++ [0] }) ∧
  (∀ (imm : Word32) (s : State), s.st ≠ .unopened →
    exec (.setw imm) s = .next { s with responses := s.responses ++ [0x0700000000000000] }) ∧
  (∀ (t : Transaction) (s : State) (rest : List Transaction), opOf t.word = 0x01 → s.inbox = t :: rest →
    ((rsvOf t.word ≠ 0 ∨ (immOf t.word).getLsbD 31 = true ∨ t.payload ≠ []) →
      step s = .next { s with inbox := rest, responses := s.responses ++ [0x0800000000000000] }) ∧
    (rsvOf t.word = 0 → (immOf t.word).getLsbD 31 = false → t.payload = [] → step s = exec (.setw (immOf t.word)) { s with inbox := rest }))

/-- 40_config.md R102: `SETH`, in each state, the words of its opcode, and that a session bound with no rows accepts none. -/
def Obligations.SethSetsTheHeight : Prop :=
  (∀ (imm : Word32) (s : State), s.st = .unopened →
    exec (.seth imm) s = .next { s with height := imm, responses := s.responses ++ [0] }) ∧
  (∀ (imm : Word32) (s : State), s.st ≠ .unopened →
    exec (.seth imm) s = .next { s with responses := s.responses ++ [0x0700000000000000] }) ∧
  (∀ (t : Transaction) (s : State) (rest : List Transaction), opOf t.word = 0x02 → s.inbox = t :: rest →
    ((rsvOf t.word ≠ 0 ∨ (immOf t.word).getLsbD 31 = true ∨ t.payload ≠ []) →
      step s = .next { s with inbox := rest, responses := s.responses ++ [0x0800000000000000] }) ∧
    (rsvOf t.word = 0 → (immOf t.word).getLsbD 31 = false → t.payload = [] → step s = exec (.seth (immOf t.word)) { s with inbox := rest })) ∧
  (∀ (s : State) (row : Word32) (p : List Byte), s.st = .opened → s.height = 0 →
    exec (.enc row p) s = .next { s with
      faultCode := 5, poison := true, st := .closed, releases := s.releases + 1,
      responses := s.responses ++ [0x0500000000000000] })

/-- 40_config.md R103: `SETC` stages any value; `BIND` is where a bad one is refused. -/
def Obligations.SetcStagesTheChannelCount : Prop :=
  (∀ (imm : Word32) (s : State), s.st = .unopened →
    exec (.setc imm) s = .next { s with nchan := imm, responses := s.responses ++ [0] }) ∧
  (∀ (imm : Word32) (s : State), s.st ≠ .unopened →
    exec (.setc imm) s = .next { s with responses := s.responses ++ [0x0700000000000000] }) ∧
  (∀ (t : Transaction) (s : State) (rest : List Transaction), opOf t.word = 0x03 → s.inbox = t :: rest →
    ((rsvOf t.word ≠ 0 ∨ t.payload ≠ []) →
      step s = .next { s with inbox := rest, responses := s.responses ++ [0x0800000000000000] }) ∧
    (rsvOf t.word = 0 → t.payload = [] → step s = exec (.setc (immOf t.word)) { s with inbox := rest })) ∧
  (∀ s : State, s.st = .unopened → s.nchan.toNat ≠ 1 → s.nchan.toNat ≠ 3 → s.nchan.toNat ≠ 4 →
    exec .bind s = .next { s with responses := s.responses ++ [0x0200000000000000] })

/-- 40_config.md R104: `BIND`, its success and its failures in order; on a failure nothing but the response changes. -/
def Obligations.BindFixesTheGeometry : Prop :=
  (∀ s : State, s.st ≠ .unopened →
    exec .bind s = .next { s with responses := s.responses ++ [0x0700000000000000] }) ∧
  (∀ s : State, s.st = .unopened → ¬ (s.nchan.toNat = 1 ∨ s.nchan.toNat = 3 ∨ s.nchan.toNat = 4) →
    exec .bind s = .next { s with responses := s.responses ++ [0x0200000000000000] }) ∧
  (∀ s : State, s.st = .unopened → (s.nchan.toNat = 1 ∨ s.nchan.toNat = 3 ∨ s.nchan.toNat = 4) →
    2 ^ 32 ≤ ((s.width.toNat * s.nchan.toNat + 3) / 4 * 4) * s.height.toNat + (if s.nchan.toNat = 1 then 1078 else 54) →
    exec .bind s = .next { s with responses := s.responses ++ [0x0300000000000000] }) ∧
  (∀ s : State, s.st = .unopened → (s.nchan.toNat = 1 ∨ s.nchan.toNat = 3 ∨ s.nchan.toNat = 4) →
    ((s.width.toNat * s.nchan.toNat + 3) / 4 * 4) * s.height.toNat + (if s.nchan.toNat = 1 then 1078 else 54) < 2 ^ 32 →
    exec .bind s = .next { s with
      pixoff := if s.nchan.toNat = 1 then 1078 else 54
      padlen := BitVec.ofNat 33 ((s.width.toNat * s.nchan.toNat + 3) / 4 * 4)
      rowcnt := 0
      st := .opened
      responses := s.responses ++ [0] } ∧
    (s.width.toNat < 2 ^ 31 →
      (BitVec.ofNat 33 ((s.width.toNat * s.nchan.toNat + 3) / 4 * 4)).toNat =
        (s.width.toNat * s.nchan.toNat + 3) / 4 * 4)) ∧
  (∀ (t : Transaction) (s : State) (rest : List Transaction), opOf t.word = 0x04 → s.inbox = t :: rest →
    ((rsvOf t.word ≠ 0 ∨ immOf t.word ≠ 0 ∨ t.payload ≠ []) →
      step s = .next { s with inbox := rest, responses := s.responses ++ [0x0800000000000000] }) ∧
    (rsvOf t.word = 0 → immOf t.word = 0 → t.payload = [] → step s = exec .bind { s with inbox := rest }))

/-- 40_config.md R105: the padded-row length, as a ceiling, as the least multiple of 4, and its padding count. -/
def Obligations.PadLengthIsTheLeastMultipleOfFour : Prop :=
  ∀ w c : Nat,
    padLength w c = ⌈((w * c : Nat) : ℚ) / 4⌉₊ * 4 ∧ padLength w c = (w * c + 3) / 4 * 4 ∧
    padLength w c % 4 = 0 ∧ w * c ≤ padLength w c ∧ (∀ m, m % 4 = 0 → w * c ≤ m → padLength w c ≤ m) ∧
    padLength 0 c = 0 ∧ padLength w 4 = 4 * w ∧
    (w * c % 4 = 0 → padLength w c = w * c) ∧ padLength w c - w * c = (4 - w * c % 4) % 4

/-- 40_config.md R106 and R107: the pixel-data offset and the file size, and that `BIND` accepts a staged legal geometry
exactly when its exact size is below `2^32`. -/
def Obligations.BindAcceptsExactlyTheSmallFiles : Prop :=
  (pixelOffset 1 = 1078 ∧ pixelOffset 3 = 54 ∧ pixelOffset 4 = 54) ∧
  (∀ w h c, projectedSize w h c = padLength w c * h + pixelOffset c) ∧
  (∀ w c, projectedSize w 0 c = pixelOffset c) ∧
  (∀ s : State, s.st = .unopened → LegalChannels s.nchan.toNat →
    (projectedSize s.width.toNat s.height.toNat s.nchan.toNat < 2 ^ 32 →
      ∃ t, exec .bind s = .next t ∧ t.st = .opened ∧ t.pixoff.toNat = pixelOffset s.nchan.toNat) ∧
    (2 ^ 32 ≤ projectedSize s.width.toNat s.height.toNat s.nchan.toNat →
      exec .bind s = .next { s with responses := s.responses ++ [0x0300000000000000] }))

/-- 40_config.md R108: the bounds that follow, and that the largest file size is met. -/
def Obligations.GeometryBounds : Prop :=
  projectedSize 1073741810 1 4 = 2 ^ 32 - 2 ∧ ∀ w h c : Nat, w < 2 ^ 31 → LegalChannels c →
    padLength w c ≤ 2 ^ 33 - 4 ∧ padLength w 3 ≤ 3 * 2 ^ 31 ∧
    projectedSize w h c % 4 = 2 ∧
    (projectedSize w h c < 2 ^ 32 → projectedSize w h c ≤ 2 ^ 32 - 2) ∧
    (projectedSize w h c < 2 ^ 32 → 1 ≤ h → padLength w c ≤ 2 ^ 32 - 56 ∧
      ∀ r i, r < h → i < padLength w c → pixelOffset c + r * padLength w c + i < 2 ^ 32)

/-- 10_state.md R35: outside `UNOPENED` no command changes the geometry, and the four commands that could fail with
`BadState`. -/
def Obligations.GeometryIsFixedAfterBind : Prop :=
  (∀ s t : State, s.st ≠ .unopened → step s = .next t →
    t.width = s.width ∧ t.height = s.height ∧ t.nchan = s.nchan ∧ t.pixoff = s.pixoff ∧ t.padlen = s.padlen) ∧
  (∀ (s : State) (i : Instr), s.st ≠ .unopened → ((∃ v, i = .setw v) ∨ (∃ v, i = .seth v) ∨ (∃ v, i = .setc v) ∨ i = .bind) →
    exec i s = .next { s with responses := s.responses ++ [0x0700000000000000] })

/-! ## Session commands and the state machine -/

/-- 42_session.md R140: `REL` in each state. -/
def Obligations.RelReleasesTheSinkOnce : Prop :=
  (∀ s : State, s.st = .unopened →
    exec .rel s = .next { s with responses := s.responses ++ [0x0700000000000000] }) ∧
  (∀ s : State, s.st = .opened →
    exec .rel s = .next { s with st := .closed, releases := s.releases + 1, responses := s.responses ++ [0] }) ∧
  (∀ s : State, s.st = .closed → exec .rel s = .next { s with responses := s.responses ++ [0] }) ∧
  (∀ (t : Transaction) (s : State) (rest : List Transaction), opOf t.word = 0x06 → s.inbox = t :: rest →
    ((rsvOf t.word ≠ 0 ∨ immOf t.word ≠ 0 ∨ t.payload ≠ []) →
      step s = .next { s with inbox := rest, responses := s.responses ++ [0x0800000000000000] }) ∧
    (rsvOf t.word = 0 → immOf t.word = 0 → t.payload = [] → step s = exec .rel { s with inbox := rest }))

/-- 42_session.md R141 and 10_state.md R29: `RD` answers with the register of its index, in every state, and changes nothing
else; an index of 8 or more is illegal. -/
def Obligations.RdAnswersWithTheRegister : Prop :=
  (∀ (r : Reg) (s : State),
    exec (.rd r) s = .next { s with responses := s.responses ++ [(0x00#8 ++ readReg r s : BitVec (8 + 56))] }) ∧
  (∀ s : State,
    (readReg .width s).toNat = s.width.toNat ∧ (readReg .height s).toNat = s.height.toNat ∧
    (readReg .nchan s).toNat = s.nchan.toNat ∧ (readReg .pixoff s).toNat = s.pixoff.toNat ∧
    (readReg .padlen s).toNat = s.padlen.toNat ∧
    (readReg .status s).toNat =
      (match s.st with | .unopened => 0 | .opened => 1 | .closed => 2) + 4 * (if s.poison then 1 else 0) ∧
    (readReg .fault s).toNat = s.faultCode.toNat ∧ (readReg .rowcnt s).toNat = s.rowcnt.toNat) ∧
  (∀ (t : Transaction) (s : State) (rest : List Transaction), opOf t.word = 0x07 → s.inbox = t :: rest →
    ((rsvOf t.word ≠ 0 ∨ 8 ≤ (immOf t.word).toNat ∨ t.payload ≠ []) →
      step s = .next { s with inbox := rest, responses := s.responses ++ [0x0800000000000000] }) ∧
    (rsvOf t.word = 0 → (immOf t.word).toNat < 8 → t.payload = [] →
      ∃ r, step s = exec (.rd r) { s with inbox := rest } ∧
        [Reg.width, .height, .nchan, .pixoff, .padlen, .status, .fault, .rowcnt][(immOf t.word).toNat]? = some r))

/-- 42_session.md R142: the permission matrix; a command not admitted is answered `BadState` and changes nothing, and an
admitted one is never answered so. -/
def Obligations.PermissionMatrixDecidesAdmission : Prop :=
  ∀ (i : Instr) (s : State),
    (admits s.st i = false → exec i s = .next { s with responses := s.responses ++ [0x0700000000000000] }) ∧
    (admits s.st i = true → ∀ t, exec i s = .next t → t.responses ≠ s.responses ++ [0x0700000000000000])

/-- 42_session.md R143: every transition of `ST`, its cause and what else happens at it. -/
def Obligations.SessionStateMachine : Prop :=
  (∀ s t : State, step s = .next t →
    (t.st = s.st ∧ t.releases = s.releases) ∨
    (∃ tr rest i, s.inbox = tr :: rest ∧ decode tr = .ok i ∧
      ((s.st = .unopened ∧ t.st = .opened ∧ i = .bind ∧ t.releases = s.releases ∧ t.rowcnt = 0 ∧
          t.pixoff = BitVec.ofNat 32 (pixelOffset s.nchan.toNat) ∧
          t.padlen = BitVec.ofNat 33 (padLength s.width.toNat s.nchan.toNat)) ∨
        (s.st = .opened ∧ t.st = .closed ∧ i = .rel ∧ t.releases = s.releases + 1 ∧
          t.poison = s.poison ∧ t.faultCode = s.faultCode) ∨
        (s.st = .opened ∧ t.st = .closed ∧ (∃ row p, i = .enc row p) ∧ t.releases = s.releases + 1 ∧ t.poison = true ∧
          ((t.faultCode = 5 ∧ t.responses = s.responses ++ [0x0500000000000000]) ∨
            (t.faultCode = 6 ∧ t.responses = s.responses ++ [0x0600000000000000])))))) ∧
  (∀ s : State, (blockReset s).st = .unopened ∧ ∀ r : Reg, readReg r (blockReset s) = 0)

/-- 42_session.md R144: no command leaves `CLOSED`, and in it every register keeps its value. -/
def Obligations.ClosedIsTerminal : Prop :=
  ∀ s t : State, s.st = .closed → step s = .next t → t = { s with inbox := t.inbox, responses := t.responses }

/-- 70_reset_and_hazards.md R185: however many commands follow a closed session, by an abort or not, no byte is written, the
position stays, no second release happens; and an `ENC` outside `OPEN` is refused without touching anything. -/
def Obligations.NoWritesAfterTheSessionEnds : Prop :=
  (∀ (k : Nat) (s t : State), s.st = .closed → runSteps k s = .next t →
    t.st = .closed ∧ t.sink = s.sink ∧ t.sinkPos = s.sinkPos ∧ t.releases = s.releases) ∧
  (∀ (s : State) (row : Word32) (p : List Byte), s.st ≠ .opened →
    exec (.enc row p) s = .next { s with responses := s.responses ++ [0x0700000000000000] })

/-! ## Errors and the abort sequence -/

/-- 41_encode.md R122: the row index check and the abort it makes, before the payload is looked at; the boundary is exact. -/
def Obligations.RowIndexOutOfRangeAborts : Prop :=
  (∀ (s : State) (row : Word32) (p : List Byte), s.st = .opened → s.height.toNat ≤ row.toNat →
    exec (.enc row p) s = .next { s with
      faultCode := 5, poison := true, st := .closed, releases := s.releases + 1,
      responses := s.responses ++ [0x0500000000000000] }) ∧
  (∀ (s t : State) (row : Word32) (p : List Byte), s.st = .opened → row.toNat < s.height.toNat →
    exec (.enc row p) s = .next t → t.responses ≠ s.responses ++ [0x0500000000000000])

/-- 41_encode.md R123: a payload of the wrong length is `IllegalCommand` with no effect, tested after the row index. -/
def Obligations.WrongPayloadLengthChangesNothing : Prop :=
  ∀ (s : State) (row : Word32) (p : List Byte), s.st = .opened → row.toNat < s.height.toNat →
    p.length ≠ s.width.toNat * s.nchan.toNat →
    exec (.enc row p) s = .next { s with responses := s.responses ++ [0x0800000000000000] }

/-- 60_exceptions.md R161, 10_state.md R27, R32: `POISON` and `FAULT` change only by the abort sequence, which comes only from
an `ENC` in `OPEN`, closes the session and keeps every other register. -/
def Obligations.OnlyAnAbortWritesFaultAndPoison : Prop :=
  (∀ s t : State, step s = .next t → (t.poison ≠ s.poison ∨ t.faultCode ≠ s.faultCode) →
    s.st = .opened ∧ t.st = .closed ∧ t.poison = true ∧ (t.faultCode = 5 ∨ t.faultCode = 6) ∧
    t.releases = s.releases + 1 ∧
    t.width = s.width ∧ t.height = s.height ∧ t.nchan = s.nchan ∧ t.pixoff = s.pixoff ∧ t.padlen = s.padlen ∧
    t.rowcnt = s.rowcnt ∧
    ∃ tr rest row p, s.inbox = tr :: rest ∧ decode tr = .ok (.enc row p)) ∧
  (∀ s : State, abortSession .rowIndexOutOfRange s = .next { s with
    faultCode := 5, poison := true, st := .closed, releases := s.releases + 1,
    responses := s.responses ++ [0x0500000000000000] }) ∧
  (∀ s : State, abortSession .shortWrite s = .next { s with
    faultCode := 6, poison := true, st := .closed, releases := s.releases + 1,
    responses := s.responses ++ [0x0600000000000000] })

/-- 60_exceptions.md R162: an error that does not abort leaves everything but the response as it was. -/
def Obligations.NonAbortingErrorsHaveNoEffect : Prop :=
  ∀ (s t : State) (tr : Transaction) (rest : List Transaction) (r : Word64), s.inbox = tr :: rest → step s = .next t →
    t.responses = s.responses ++ [r] → (errOf r).toNat ∈ [2, 3, 7, 8] →
    valOf r = 0 ∧ t = { s with inbox := rest, responses := s.responses ++ [r] }

/-- 60_exceptions.md R160: the order of the checks: legality before state, state before a command's own checks, the channel
count before the file size, the row index before the payload length. -/
def Obligations.ChecksAreMadeInOrder : Prop :=
  (∀ s t rest, s.inbox = t :: rest → Illegal t →
    step s = .next { s with inbox := rest, responses := s.responses ++ [0x0800000000000000] }) ∧
  (∀ s t rest i, s.inbox = t :: rest → decode t = .ok i → admits s.st i = false →
    step s = .next { s with inbox := rest, responses := s.responses ++ [0x0700000000000000] }) ∧
  (∀ s t rest, s.inbox = t :: rest → decode t = .ok .rel → s.st = .closed →
    step s = .next { s with inbox := rest, responses := s.responses ++ [0] }) ∧
  (∀ s t rest, s.inbox = t :: rest → decode t = .ok .bind → s.st = .unopened → ¬ LegalChannels s.nchan.toNat →
    step s = .next { s with inbox := rest, responses := s.responses ++ [0x0200000000000000] }) ∧
  (∀ s t rest, s.inbox = t :: rest → decode t = .ok .bind → s.st = .unopened → LegalChannels s.nchan.toNat →
    2 ^ 32 ≤ projectedSize s.width.toNat s.height.toNat s.nchan.toNat →
    step s = .next { s with inbox := rest, responses := s.responses ++ [0x0300000000000000] }) ∧
  (∀ s t rest row p, s.inbox = t :: rest → decode t = .ok (.enc row p) → s.st = .opened → s.height.toNat ≤ row.toNat →
    step s = .next { s with
      inbox := rest, faultCode := 5, poison := true, st := .closed, releases := s.releases + 1,
      responses := s.responses ++ [0x0500000000000000] }) ∧
  (∀ s t rest row p, s.inbox = t :: rest → decode t = .ok (.enc row p) → s.st = .opened → row.toNat < s.height.toNat →
    p.length ≠ s.width.toNat * s.nchan.toNat →
    step s = .next { s with inbox := rest, responses := s.responses ++ [0x0800000000000000] })

/-! ## ENC: the row -/

/-- 41_encode.md R125: the reorder as a permutation of byte indices, its own inverse, and which bytes stay. -/
def Obligations.ReorderIsTheChannelPermutation : Prop :=
  ∀ (w c : Nat) (p : List Byte), LegalChannels c → p.length = w * c →
    (reorderRow w c p).length = w * c ∧
    (∀ x k, x < w → k < c →
      (reorderRow w c p)[x * c + k]? =
        if c = 1 then p[x * c + k]?
        else if k = 0 then p[x * c + 2]?
        else if k = 2 then p[x * c]?
        else p[x * c + k]?) ∧
    (∀ i, i < w * c → (reorderRow w c p)[i]? = p[sourceIndex c i]? ∧ sourceIndex c i < w * c) ∧
    (c = 1 → reorderRow w c p = p) ∧
    reorderRow w c (reorderRow w c p) = p

/-- 41_encode.md R126: zero bytes up to `PADLEN`, none, one, two or three of them, and padding commutes with the reorder. -/
def Obligations.PaddingAppendsZeros : Prop :=
  ∀ (w c : Nat) (p : List Byte), LegalChannels c → p.length = w * c →
    (padRow (padLength w c) p).length = padLength w c ∧
    (∀ i, i < w * c → (padRow (padLength w c) p)[i]? = p[i]?) ∧
    (∀ i, w * c ≤ i → i < padLength w c → (padRow (padLength w c) p)[i]? = some 0) ∧
    padLength w c - w * c ≤ 3 ∧ (w * c % 4 = 0 → padRow (padLength w c) p = p) ∧
    padRow (padLength w c) (reorderRow w c p) = reorderRow w c (padRow (padLength w c) p)

/-- 41_encode.md R127 and 20_memory.md R58: the row mapping is an inversion of `0 .. HEIGHT - 1`, the row lies in the pixel
region below `2^32`, and its address is 2 modulo 4. -/
def Obligations.RowMappingIsTheBottomUpInversion : Prop :=
  (∀ h y, y < h → diskRow h y < h ∧ diskRow h (diskRow h y) = y ∧ diskRow h y = h - 1 - y) ∧
  (∀ (s : State) (y : Nat), SessionInv s → s.st ≠ .unopened → y < s.height.toNat →
    rowAddress s y = s.pixoff.toNat + (s.height.toNat - 1 - y) * s.padlen.toNat ∧
    rowAddress s y % 4 = 2 ∧
    rowAddress s y + s.padlen.toNat ≤ s.pixoff.toNat + s.padlen.toNat * s.height.toNat ∧
    s.pixoff.toNat + s.padlen.toNat * s.height.toNat < 2 ^ 32)

/-- The whole next state of an `ENC` whose write is full (41_encode.md R120, R129): the completion of `ENC`. -/
def Obligations.EncWithAFullWriteCompletes : Prop :=
  ∀ (s : State) (row : Word32) (p : List Byte), s.st = .opened → row.toNat < s.height.toNat →
    p.length = s.width.toNat * s.nchan.toNat →
    rowAddress s row.toNat < 2 ^ 32 → rowAddress s row.toNat + s.padlen.toNat ≤ 2 ^ 32 → FullWrite s.padlen.toNat s →
    exec (.enc row p) s = .next { s with
      rowbuf := padRow s.padlen.toNat (reorderRow s.width.toNat s.nchan.toNat p)
      sink := s.sink.writeBytes (s.pixoff.toNat + (s.height.toNat - 1 - row.toNat) * s.padlen.toNat)
        ((padRow s.padlen.toNat (reorderRow s.width.toNat s.nchan.toNat p)).take s.padlen.toNat)
      sinkPos := s.pixoff.toNat + (s.height.toNat - 1 - row.toNat) * s.padlen.toNat + s.padlen.toNat
      sinkAnswers := s.sinkAnswers.tail
      sinkWrites := s.sinkWrites + 1
      rowcnt := BitVec.ofNat 32 (min (s.rowcnt.toNat + 1) 4294967295)
      responses := s.responses ++ [0] }

/-- 41_encode.md R131: the effect of a successful `ENC` in closed form. -/
def Obligations.SuccessfulEncInClosedForm : Prop :=
  ∀ (s : State) (row : Word32) (p : List Byte), SessionInv s → s.st = .opened → row.toNat < s.height.toNat →
    p.length = s.width.toNat * s.nchan.toNat → FullWrite s.padlen.toNat s →
    ∃ t, exec (.enc row p) s = .next t ∧
      (∀ i, i < s.width.toNat * s.nchan.toNat →
        sourceIndex s.nchan.toNat i < p.length ∧
        t.sink.read (s.pixoff.toNat + (s.height.toNat - 1 - row.toNat) * s.padlen.toNat + i) =
          p[sourceIndex s.nchan.toNat i]?) ∧
      (∀ i, s.width.toNat * s.nchan.toNat ≤ i → i < s.padlen.toNat →
        t.sink.read (s.pixoff.toNat + (s.height.toNat - 1 - row.toNat) * s.padlen.toNat + i) = some 0) ∧
      (∀ b, (b < s.pixoff.toNat + (s.height.toNat - 1 - row.toNat) * s.padlen.toNat ∨
          s.pixoff.toNat + (s.height.toNat - 1 - row.toNat) * s.padlen.toNat + s.padlen.toNat ≤ b) →
        t.sink.read b = s.sink.read b) ∧
      t.sinkPos = s.pixoff.toNat + (s.height.toNat - 1 - row.toNat) * s.padlen.toNat + s.padlen.toNat ∧
      t.rowcnt.toNat = min (s.rowcnt.toNat + 1) 4294967295 ∧
      t = { s with
        rowbuf := t.rowbuf, sink := t.sink, sinkPos := t.sinkPos, rowcnt := t.rowcnt,
        sinkAnswers := s.sinkAnswers.tail, sinkWrites := s.sinkWrites + 1, responses := s.responses ++ [0] }

/-- 41_encode.md R129: a short write of any count aborts the session and leaves exactly that prefix of the row; a full one
counts the row. Here for every offer of the sink, so for every value of the free one. -/
def Obligations.EncResultFollowsTheAcceptedCount : Prop :=
  ∀ (s : State) (row : Word32) (p : List Byte), SessionInv s → s.st = .opened → row.toNat < s.height.toNat →
    p.length = s.width.toNat * s.nchan.toNat →
    ∃ t n, exec (.enc row p) s = .next t ∧ n ≤ s.padlen.toNat ∧ n = min (sinkOffer s) s.padlen.toNat ∧
      t.sinkPos = rowAddress s row.toNat + n ∧
      (∀ i, i < n → t.sink.read (rowAddress s row.toNat + i) = (diskBytes s p)[i]?) ∧
      (∀ b, (b < rowAddress s row.toNat ∨ rowAddress s row.toNat + n ≤ b) → t.sink.read b = s.sink.read b) ∧
      (n = s.padlen.toNat →
        t.st = .opened ∧ t.rowcnt.toNat = min (s.rowcnt.toNat + 1) 4294967295 ∧
        t.poison = s.poison ∧ t.faultCode = s.faultCode ∧ t.releases = s.releases ∧
        t.responses = s.responses ++ [0]) ∧
      (n < s.padlen.toNat →
        t.st = .closed ∧ t.rowcnt = s.rowcnt ∧ t.poison = true ∧ t.faultCode = 6 ∧ t.releases = s.releases + 1 ∧
        t.responses = s.responses ++ [0x0600000000000000])

/-- 41_encode.md R130, the zero-width case: the empty payload succeeds whatever the sink would accept, seeks to `PIXOFF`,
counts the row and changes no byte. -/
def Obligations.ZeroWidthRowAlwaysSucceeds : Prop :=
  ∀ (s : State) (row : Word32), SessionInv s → s.st = .opened → s.width = 0 → row.toNat < s.height.toNat →
    exec (.enc row []) s = .next { s with
      rowbuf := []
      sinkPos := s.pixoff.toNat
      sinkAnswers := s.sinkAnswers.tail
      sinkWrites := s.sinkWrites + 1
      rowcnt := BitVec.ofNat 32 (min (s.rowcnt.toNat + 1) 4294967295)
      responses := s.responses ++ [0] }

/-- 20_memory.md R59: the same `ENC` executed twice with full writes leaves the sink as one execution does, while `ROWCNT`
counts both. -/
def Obligations.RepeatedEncLeavesTheSameBytes : Prop :=
  ∀ (s t u : State) (row : Word32) (p : List Byte), SessionInv s → s.st = .opened → FullWrite s.padlen.toNat s →
    exec (.enc row p) s = .next t → t.responses = s.responses ++ [0] → FullWrite t.padlen.toNat t →
    exec (.enc row p) t = .next u →
    u.sink = t.sink ∧ u.sinkPos = t.sinkPos ∧ u.rowcnt.toNat = min (s.rowcnt.toNat + 2) 4294967295

/-! ## The sink -/

/-- 20_memory.md R60 and R61: a seek to any sink address succeeds and moves the position only; a write stores the accepted
prefix at the position, leaves every other byte, advances by the count; an empty write is full; and every count in
`0 .. L` is a possible answer. -/
def Obligations.SinkPrimitives : Prop :=
  (∀ (a : Nat) (s : State), a < 2 ^ 32 → sinkSeek a s = .ok { s with sinkPos := a }) ∧
  (∀ (bs : List Byte) (s : State), s.sink.wf → s.sinkPos + bs.length ≤ 2 ^ 32 →
    ∃ n t, sinkWrite bs s = .ok (n, t) ∧ n ≤ bs.length ∧ (bs.length = 0 → n = 0) ∧ t.sinkPos = s.sinkPos + n ∧
      (∀ i, i < n → t.sink.read (s.sinkPos + i) = bs[i]?) ∧
      (∀ b, (b < s.sinkPos ∨ s.sinkPos + n ≤ b) → t.sink.read b = s.sink.read b) ∧
      t = { s with
        sink := t.sink, sinkPos := t.sinkPos, sinkAnswers := s.sinkAnswers.tail, sinkWrites := s.sinkWrites + 1 }) ∧
  (∀ (bs : List Byte) (s : State) (n : Nat), s.sinkPos + bs.length ≤ 2 ^ 32 → n ≤ bs.length →
    ∃ t, sinkWrite bs { s with sinkAnswers := n :: s.sinkAnswers } = .ok (n, t))

/-- 20_memory.md R51: from a state that meets the session invariant no step writes below `PIXOFF` or at or above
`PIXOFF + PADLEN x HEIGHT`. -/
def Obligations.TheBlockWritesOnlyThePixelRegion : Prop :=
  ∀ (s t : State) (b : Nat), SessionInv s → step s = .next t →
    (b < s.pixoff.toNat ∨ s.pixoff.toNat + s.padlen.toNat * s.height.toNat ≤ b) → t.sink.read b = s.sink.read b

/-- 20_memory.md R63: nothing the block does depends on the sink's bytes or on the position it finds: states that differ only
there step to outcomes that differ only there, or stop alike; and what the two steps do to the sink is the same too: at every
address both leave the byte as each found it or both leave the same byte, and both leave the position as each found it or both
leave the same position. -/
def Obligations.NoBehaviourDependsOnTheSink : Prop :=
  ∀ s t : State, AgreeOffSink s t →
    match step s, step t with
    | .next s', .next t' =>
      AgreeOffSink s' t' ∧
      (∀ b, (s'.sink.read b = s.sink.read b ∧ t'.sink.read b = t.sink.read b) ∨ s'.sink.read b = t'.sink.read b) ∧
      ((s'.sinkPos = s.sinkPos ∧ t'.sinkPos = t.sinkPos) ∨ s'.sinkPos = t'.sinkPos)
    | .fault f, .fault g => f = g
    | .refused q, .refused r => q = r
    | _, _ => False

/-- The frame of `ENC`: when it gives a next state, the configuration registers are unchanged, and every sink byte outside
the row's place reads as before. -/
def Obligations.EncFrame : Prop :=
  ∀ (s t : State) (row : Word32) (p : List Byte), s.sink.wf → exec (.enc row p) s = .next t →
    t.width = s.width ∧ t.height = s.height ∧ t.nchan = s.nchan ∧ t.pixoff = s.pixoff ∧ t.padlen = s.padlen ∧
    t.inbox = s.inbox ∧
    (t.rowcnt = s.rowcnt ∨ t.rowcnt = BitVec.ofNat 32 (min (s.rowcnt.toNat + 1) 4294967295)) ∧
    (t.st = s.st → t.poison = s.poison ∧ t.faultCode = s.faultCode ∧ t.releases = s.releases) ∧
    (∀ b, (b < rowAddress s row.toNat ∨ rowAddress s row.toNat + s.padlen.toNat ≤ b) → t.sink.read b = s.sink.read b) ∧
    (t.responses ≠ s.responses ++ [0] → t.responses ≠ s.responses ++ [0x0600000000000000] →
      t.sink = s.sink ∧ t.sinkPos = s.sinkPos ∧ t.rowbuf = s.rowbuf ∧ t.rowcnt = s.rowcnt)

/-- The frame of the six commands that do not write the sink: bytes, position, row buffer, the sink's answers, `POISON` and
`FAULT` are unchanged, and every register but the command's own. -/
def Obligations.OtherCommandsFrame : Prop :=
  ∀ (s t : State) (i : Instr), (∀ row p, i ≠ .enc row p) → exec i s = .next t →
    t.sink = s.sink ∧ (∀ b, t.sink.read b = s.sink.read b) ∧ t.sinkPos = s.sinkPos ∧ t.rowbuf = s.rowbuf ∧
    t.sinkAnswers = s.sinkAnswers ∧ t.sinkWrites = s.sinkWrites ∧ t.inbox = s.inbox ∧
    t.poison = s.poison ∧ t.faultCode = s.faultCode ∧
    ((∀ v, i ≠ .setw v) → t.width = s.width) ∧ ((∀ v, i ≠ .seth v) → t.height = s.height) ∧
    ((∀ v, i ≠ .setc v) → t.nchan = s.nchan) ∧
    (i ≠ .bind → t.pixoff = s.pixoff ∧ t.padlen = s.padlen ∧ t.rowcnt = s.rowcnt) ∧
    (i ≠ .rel → t.releases = s.releases) ∧ (i ≠ .bind → i ≠ .rel → t.st = s.st)

/-- 10_state.md R28: `ROWCNT` is cleared by a successful `BIND`, grows by one (saturating) at each successful `ENC`, and
nothing else writes it. -/
def Obligations.RowcntCountsSuccessfulRows : Prop :=
  ∀ (s t : State) (tr : Transaction) (rest : List Transaction), s.inbox = tr :: rest → step s = .next t →
    (decode tr = .ok .bind → t.responses = s.responses ++ [0] → t.rowcnt = 0) ∧
    (∀ row p, decode tr = .ok (.enc row p) → t.responses = s.responses ++ [0] →
      t.rowcnt.toNat = min (s.rowcnt.toNat + 1) 4294967295) ∧
    (t.responses ≠ s.responses ++ [0] → t.rowcnt = s.rowcnt) ∧
    (decode tr ≠ .ok .bind → (∀ row p, decode tr ≠ .ok (.enc row p)) → t.rowcnt = s.rowcnt)

/-! ## Reset, steps and invariants -/

/-- 10_state.md R36 and 70_reset_and_hazards.md R180: what reset leaves. Only values the spec gives are stated; the sink, its
position and the model's own fields are not. -/
def Obligations.ResetLeavesEveryRegisterZero : Prop :=
  (∀ s : State,
    (blockReset s).width = 0 ∧ (blockReset s).height = 0 ∧ (blockReset s).nchan = 0 ∧ (blockReset s).pixoff = 0 ∧
    (blockReset s).padlen = 0 ∧ (blockReset s).st = .unopened ∧ (blockReset s).poison = false ∧
    (blockReset s).faultCode = 0 ∧ (blockReset s).rowcnt = 0 ∧ (blockReset s).releases = 0 ∧
    (blockReset s).sink = s.sink ∧ (blockReset s).sinkPos = s.sinkPos) ∧
  (∀ r : Reg, readReg r State.reset = 0) ∧ State.reset.st = .unopened ∧ State.reset.releases = 0 ∧
  exec .bind State.reset = .next { State.reset with responses := [0x0200000000000000] }

/-- A step runs the decoded command on the state with the transaction taken off the host's list, and a table word placed for
the next step is the transaction that step takes. The list of transactions is the model's own (log 1). -/
def Obligations.StepRunsTheDecodedCommand : Prop :=
  (∀ (s : State) (t : Transaction) (rest : List Transaction) (i : Instr), s.inbox = t :: rest → decode t = .ok i →
    step s = exec i { s with inbox := rest }) ∧
  (∀ (s : State) (nbits w : Nat) (i : Instr), decodeTableWord nbits w = some i → step (s.withFetchWord nbits w) = exec i s)

/-- 60_exceptions.md R169: a block with no command in hand does nothing and keeps all its state. -/
def Obligations.IdleBlockKeepsItsState : Prop :=
  ∀ s : State, s.inbox = [] → step s = .next s

/-- 10_state.md R34 "after reset": the invariants hold at reset, and after reset in any state whose sink is in canonical
form. -/
def Obligations.ResetMeetsTheSessionInvariant : Prop :=
  SessionInv State.reset ∧ ∀ s : State, s.sink.wf → SessionInv (blockReset s)

/-- 10_state.md R34 "after every command": every step keeps the invariants, from every state that meets them. -/
def Obligations.EveryStepKeepsTheSessionInvariant : Prop :=
  ∀ s t : State, SessionInv s → step s = .next t → SessionInv t

/-- From every state that meets the invariants a step gives a next state: no stop is ever reached. -/
def Obligations.NoStepStopsUnderTheInvariant : Prop :=
  ∀ s : State, SessionInv s → ∃ t, step s = .next t

/-- 10_state.md R34 with 20_memory.md R62: whatever the host sends and the sink answers, after any number of steps from reset
the machine has not stopped, the invariants hold, and the sink has been released once if the session is closed and never
before. -/
def Obligations.RunsFromResetMeetTheInvariants : Prop :=
  ∀ (s : State) (k : Nat), StartsRun s → s.sink.wf →
    ∃ t, runSteps k s = .next t ∧ SessionInv t ∧ t.releases = (if t.st = .closed then 1 else 0) ∧
      (t.st ≠ .unopened → 1 ≤ t.height.toNat →
        t.padlen.toNat < 2 ^ 32 ∧ t.width.toNat * t.nchan.toNat < 2 ^ 32 ∧
        ∀ r, r < t.height.toNat → t.pixoff.toNat + (r + 1) * t.padlen.toNat ≤ 2 ^ 32)

/-! ## The file -/

/-- 20_memory.md R52 to R54 (context): the header bytes: their number is the pixel-data offset, and their fields. -/
def Obligations.HeaderBytesHoldTheGeometry : Prop :=
  ∀ (w h c : Nat) (res : Resolution), LegalChannels c → w < 2 ^ 31 → h < 2 ^ 31 → projectedSize w h c < 2 ^ 32 →
    (headerRegion w h c res).length = pixelOffset c ∧
    (headerRegion w h c res).take 2 = [0x42, 0x4D] ∧
    leValue (((headerRegion w h c res).drop 2).take 4) = projectedSize w h c ∧
    leValue (((headerRegion w h c res).drop 10).take 4) = pixelOffset c ∧
    leValue (((headerRegion w h c res).drop 14).take 4) = 40 ∧
    leValue (((headerRegion w h c res).drop 18).take 4) = w ∧
    leValue (((headerRegion w h c res).drop 22).take 4) = h ∧
    leValue (((headerRegion w h c res).drop 28).take 2) = 8 * c ∧
    (c = 1 → ∀ i, i < 256 →
      ((headerRegion w h c res).drop (54 + 4 * i)).take 4 =
        [BitVec.ofNat 8 i, BitVec.ofNat 8 i, BitVec.ofNat 8 i, 255])

/-- 41_encode.md R133: whatever the order of the `ENC` commands and however often a row is sent, if every one of them
succeeds, each row stands at its place as its last payload gives it; two such runs that last sent the same row bytes agree on
the whole pixel region; so does a tile replay of the buffer that holds those rows; and the same is true of every sequence of
transactions after which the session is still open, whatever else is sent in between: reads, refused commands, illegal ones. -/
def Obligations.RowOrderDoesNotMatter : Prop :=
  (∀ (s t : State) (rows : List (Word32 × List Byte)), SessionInv s → s.st = .opened →
    runCommands (encCommands rows) s = .next t → sessionResult s t = .success →
    t.st = .opened ∧ ∀ y p, lastSent rows y = some p → RowWritten t y p) ∧
  (∀ (s t u : State) (rows others : List (Word32 × List Byte)), SessionInv s → s.st = .opened →
    runCommands (encCommands rows) s = .next t → sessionResult s t = .success →
    runCommands (encCommands others) s = .next u → sessionResult s u = .success →
    (∀ y, y < s.height.toNat → lastSent rows y ≠ none ∧ lastSent others y = lastSent rows y) →
    ∀ b, s.pixoff.toNat ≤ b → b < s.pixoff.toNat + s.padlen.toNat * s.height.toNat → u.sink.read b = t.sink.read b) ∧
  (∀ (s t u : State) (rows : List (Word32 × List Byte)) (buf : List Byte), SessionInv s → s.st = .opened →
    runCommands (encCommands rows) s = .next t → sessionResult s t = .success →
    runCommands (replayCommands s.width.toNat s.height.toNat s.nchan.toNat buf) s = .next u →
    sessionResult s u = .success →
    (∀ y, y < s.height.toNat → lastSent rows y = some (bufferRow s.width.toNat s.nchan.toNat buf y)) →
    (∀ y, y < s.height.toNat → RowWritten u y (bufferRow s.width.toNat s.nchan.toNat buf y)) ∧
    ∀ b, s.pixoff.toNat ≤ b → b < s.pixoff.toNat + s.padlen.toNat * s.height.toNat → u.sink.read b = t.sink.read b) ∧
  (∀ s t : State, SessionInv s → s.st = .opened → runSteps s.inbox.length s = .next t → t.st = .opened →
    ∀ y p, lastSent (rowsSent s s.inbox) y = some p → RowWritten t y p)

/-- 20_memory.md R65 with R51 to R56: when the headers are written and every row is written by a successful `ENC`, in any
order, the sink holds exactly the complete file, and its length is the size the header announces; releasing leaves a clean
finished run. -/
def Obligations.EveryRowWrittenGivesTheCompleteFile : Prop :=
  ∀ (s t : State) (res : Resolution) (picture : List (List Byte)) (rows : List (Word32 × List Byte)),
    SessionInv s → s.st = .opened → (∀ b, s.sink.read b = (sessionHeaders s res)[b]?) →
    picture.length = s.height.toNat → (∀ y, y < s.height.toNat → lastSent rows y = picture[y]?) →
    runCommands (encCommands rows) s = .next t → sessionResult s t = .success →
    (∀ b, t.sink.read b = (pictureFile t res picture)[b]?) ∧
    t.sink.fileLength = fileSize t ∧ fileSize t = (pictureFile t res picture).length ∧
    fileSize t = projectedSize t.width.toNat t.height.toNat t.nchan.toNat ∧
    leValue (((sessionHeaders t res).drop 2).take 4) = fileSize t ∧
    ∃ u, sendCommand .rel t = .next u ∧ Clean u ∧ u.sink = t.sink ∧ u.releases = 1

/-- 70_reset_and_hazards.md R192: if no row is written twice, `ROWCNT` equals the number of rows written, and is `HEIGHT`
exactly when every row was written. -/
def Obligations.RowcntTellsACompleteImage : Prop :=
  ∀ (s t : State) (rows : List (Word32 × List Byte)), SessionInv s → s.st = .opened → s.rowcnt = 0 →
    (rows.map (fun r => r.1.toNat)).Nodup → runCommands (encCommands rows) s = .next t → sessionResult s t = .success →
    t.rowcnt.toNat = rows.length ∧ (t.rowcnt.toNat = t.height.toNat ↔ ∀ y, y < t.height.toNat → lastSent rows y ≠ none)

/-! ## Host sequences -/

/-- 30_encoding.md R90: `CONFIG w, h, c` opens the session with the geometry, when it is legal and fits; and with a bad channel
count it stops at `BIND` with the block still `UNOPENED`. -/
def Obligations.ConfigOpensTheSession : Prop :=
  ∀ (w h c : Word32) (s : State), s.st = .unopened → w.toNat < 2 ^ 31 → h.toNat < 2 ^ 31 →
    (LegalChannels c.toNat → projectedSize w.toNat h.toNat c.toNat < 2 ^ 32 →
      ∃ t, runCommands (configCommands w h c) s = .next t ∧ sessionResult s t = .success ∧ t.st = .opened ∧
        t.width = w ∧ t.height = h ∧ t.nchan = c ∧ t.rowcnt = 0 ∧
        t.pixoff.toNat = pixelOffset c.toNat ∧ t.padlen.toNat = padLength w.toNat c.toNat ∧ t.inbox = s.inbox) ∧
    (¬ LegalChannels c.toNat →
      ∃ t, runCommands (configCommands w h c) s = .next t ∧ sessionResult s t = .failed .unsupportedChannelCount ∧
        t.st = .unopened ∧ t.sink = s.sink)

/-- 30_encoding.md R95 and 70_reset_and_hazards.md R192: closing from `OPEN`, with or without a tile replay, ends in `CLOSED`
with the sink released exactly once, whether or not the replay fails; closing from `CLOSED` is a no-op success, tiled or not,
under either policy (DEDUCED, log 19); from `UNOPENED` it is refused. That the tile buffer is empty after every one of these
closes is a DESIGN CHOICE (log 22). -/
def Obligations.CloseAlwaysReleasesTheSink : Prop :=
  (∀ (policy : UnderwritePolicy) (h : HostSession), SessionInv h.block → h.block.st = .opened →
    ∃ g r, closeSession policy h = .next (g, r) ∧ g.block.st = .closed ∧ g.block.releases = 1 ∧
      g.block.inbox = h.block.inbox ∧ g.tiled = h.tiled ∧ g.tileBuffer = [] ∧
      (g.block.faultCode = 6 → r = .failed .shortWrite) ∧
      (h.tiled = false → g.block.sink = h.block.sink ∧
        (r = .underwritten ↔ policy = .error ∧ h.block.rowcnt.toNat < h.block.height.toNat) ∧
        (r = .success ↔ policy = .ignore ∨ h.block.height.toNat ≤ h.block.rowcnt.toNat))) ∧
  (∀ (policy : UnderwritePolicy) (h : HostSession), h.block.st = .closed →
    closeSession policy h = .next
      ({ h with block := { h.block with responses := h.block.responses ++ [0] }, tileBuffer := [] }, .success)) ∧
  (∀ (policy : UnderwritePolicy) (h : HostSession), h.block.st = .unopened →
    closeSession policy h = .next
      ({ h with
          block := { h.block with responses := h.block.responses ++ [0x0700000000000000] }, tileBuffer := [] },
        .failed .badState))

/-- 30_encoding.md R93: the session's own checks in the source's order; on a failure nothing is done; on success the Header
Builder's bytes are in the sink, from the position it finds, which is to be 0, and the block is open with the described
geometry. Outside `UNOPENED` nothing is done (DESIGN CHOICE, log 13). -/
def Obligations.OpenSessionChecksThenConfigures : Prop :=
  (∀ (d : Description) (a : Bool), ¬ LegalChannels d.nchannels.toNat →
    openChecks d a = .failed .unsupportedChannelCount) ∧
  (∀ (d : Description) (a : Bool), LegalChannels d.nchannels.toNat → d.multiImage = true →
    openChecks d a = .failed .unsupportedMode) ∧
  (∀ (d : Description) (a : Bool), LegalChannels d.nchannels.toNat → d.multiImage = false →
    2 ^ 32 ≤ projectedSize d.width.toNat d.height.toNat d.nchannels.toNat → openChecks d a = .failed .fileTooLarge) ∧
  (∀ (d : Description), LegalChannels d.nchannels.toNat → d.multiImage = false →
    projectedSize d.width.toNat d.height.toNat d.nchannels.toNat < 2 ^ 32 →
    openChecks d false = .failed .sinkUnavailable ∧ openChecks d true = .success) ∧
  (∀ (d : Description) (a : Bool) (s : State), s.st = .unopened → openChecks d a ≠ .success →
    ∃ h, openSession d a s = .next (h, openChecks d a) ∧ h.block = s) ∧
  (∀ (d : Description) (a : Bool) (s : State), s.st ≠ .unopened →
    ∃ h, openSession d a s = .next (h, .failed .badState) ∧ h.block = s) ∧
  (∀ (d : Description) (a : Bool) (s : State), openChecks d a = .success → SessionInv s → s.st = .unopened →
    s.sinkPos + pixelOffset d.nchannels.toNat ≤ 2 ^ 32 → d.width.toNat < 2 ^ 31 → d.height.toNat < 2 ^ 31 →
    ∃ h, openSession d a s = .next (h, .success) ∧ h.block.st = .opened ∧
      h.block.width = d.width ∧ h.block.height = d.height ∧ h.block.nchan = d.nchannels ∧ h.tiled = d.tiling ∧
      (d.tiling = true → h.tileBuffer = List.replicate (d.width.toNat * d.height.toNat * d.nchannels.toNat) 0) ∧
      (∀ b, b < h.block.pixoff.toNat →
        h.block.sink.read (s.sinkPos + b) = (sessionHeaders h.block d.resolution)[b]?) ∧
      (∀ b, (b < s.sinkPos ∨ s.sinkPos + h.block.pixoff.toNat ≤ b) → h.block.sink.read b = s.sink.read b) ∧
      (s.sinkPos = 0 → ∀ b, b < h.block.pixoff.toNat →
        h.block.sink.read b = (sessionHeaders h.block d.resolution)[b]?))

/-- 70_reset_and_hazards.md R186: the Header Builder writes at the position it finds and moves it; every successful `ENC`
leaves the position at the end of its own row, which is the end of the file exactly when that row is logical row 0 (of rows
that hold bytes); so headers written after such an `ENC` land behind that row and, put back to position 0, at the start. -/
def Obligations.SinkPositionIsShared : Prop :=
  (∀ (w h c : Nat) (res : Resolution) (s : State), s.sink.wf → s.sinkPos + pixelOffset c ≤ 2 ^ 32 →
    ∃ t, writeHeaders w h c res s = .ok t ∧ t.sinkPos = s.sinkPos + pixelOffset c ∧
      (∀ b, b < pixelOffset c → t.sink.read (s.sinkPos + b) = (headerRegion w h c res)[b]?) ∧
      (∀ b, (b < s.sinkPos ∨ s.sinkPos + pixelOffset c ≤ b) → t.sink.read b = s.sink.read b) ∧
      t = { s with sink := t.sink, sinkPos := t.sinkPos }) ∧
  (∀ (s t : State) (row : Word32) (p : List Byte), SessionInv s → exec (.enc row p) s = .next t →
    t.responses = s.responses ++ [0] →
    t.sinkPos = rowAddress s row.toNat + s.padlen.toNat ∧
    (0 < s.padlen.toNat → (t.sinkPos = fileSize s ↔ row = 0)))

/-- 70_reset_and_hazards.md R190 with 93_implementation_defined.md U1, U2: a session refuses to mix the tile path and the
scanline path, and a tile outside the image: it has no next step there. DESIGN CHOICE (log 20): the first two clauses hold in every session
state, because the model looks for mixed paths before it looks at the state, so a call of the other path on a session that is
not open is stuck too, where U6 alone would have it refused with `BadState`; and the last clause holds of a tile outside the
image too, because the model looks at the state before the tile's place. -/
def Obligations.PathsAreNotMixed : Prop :=
  (∀ (y : Word32) (samples : List Byte) (h : HostSession), h.tiled = true →
    writeScanline y samples h = .fault .mixedPaths) ∧
  (∀ (x y z tw th : Nat) (samples : List Byte) (h : HostSession), h.tiled = false →
    writeTile x y z tw th samples h = .fault .mixedPaths) ∧
  (∀ (x y tw th : Nat) (samples : List Byte) (h : HostSession), h.tiled = true → h.block.st = .opened →
    (h.block.width.toNat < x + tw ∨ h.block.height.toNat < y + th) →
    writeTile x y 0 tw th samples h = .fault .tileOutsideImage) ∧
  (∀ (y : Word32) (samples : List Byte) (h : HostSession), h.tiled = false → SessionInv h.block →
    ∃ t, exec (.enc y samples) h.block = .next t ∧
      writeScanline y samples h = .next ({ h with block := t }, sessionResult h.block t)) ∧
  (∀ (x y z tw th : Nat) (samples : List Byte) (h : HostSession), h.tiled = true → h.block.st ≠ .opened →
    writeTile x y z tw th samples h = .next (h, .failed .badState))

/-- 30_encoding.md R94 and R96: a tile's samples go to their pixels of the buffer, which is row-major, and nothing else changes,
in the buffer or in the block. DESIGN CHOICE (log 20): the tile's extents are arguments, and the tile's own samples are
row-major too, `((py - y) * tw + (px - x)) * NCHAN + k`; the spec gives neither. An empty tile at the image's edge is inside it,
by the same choice. -/
def Obligations.TileSamplesGoToTheirPixels : Prop :=
  ∀ (x y tw th : Nat) (samples : List Byte) (h : HostSession), h.tiled = true → h.block.st = .opened →
    x + tw ≤ h.block.width.toNat → y + th ≤ h.block.height.toNat →
    samples.length = tw * th * h.block.nchan.toNat →
    h.tileBuffer.length = h.block.width.toNat * h.block.height.toNat * h.block.nchan.toNat →
    ∃ g, writeTile x y 0 tw th samples h = .next (g, .success) ∧ g.block = h.block ∧ g.tiled = true ∧
      g.tileBuffer.length = h.tileBuffer.length ∧
      ∀ px py k, px < h.block.width.toNat → py < h.block.height.toNat → k < h.block.nchan.toNat →
        g.tileBuffer[(py * h.block.width.toNat + px) * h.block.nchan.toNat + k]? =
          if x ≤ px ∧ px < x + tw ∧ y ≤ py ∧ py < y + th then
            samples[((py - y) * tw + (px - x)) * h.block.nchan.toNat + k]?
          else h.tileBuffer[(py * h.block.width.toNat + px) * h.block.nchan.toNat + k]?

/-- 30_encoding.md R94, R95, 41_encode.md R133: a tiled session closed with success holds at every row's place the row of its
buffer; a session opened without tiling on the same block, whose successful scanline writes last sent the same rows, holds the
same pixel region when it is closed. -/
def Obligations.TilePathAndScanlinePathAgree : Prop :=
  ∀ (policy : UnderwritePolicy) (h g : HostSession), h.tiled = true → SessionInv h.block → h.block.st = .opened →
    h.block.rowcnt = 0 → closeSession policy h = .next (g, .success) →
    g.block.rowcnt = h.block.height ∧
    (∀ y, y < h.block.height.toNat →
      RowWritten g.block y (bufferRow h.block.width.toNat h.block.nchan.toNat h.tileBuffer y)) ∧
    ∀ (rows : List (Word32 × List Byte)) (t : State) (k : HostSession),
      runCommands (encCommands rows) h.block = .next t → sessionResult h.block t = .success →
      (∀ y, y < h.block.height.toNat →
        lastSent rows y = some (bufferRow h.block.width.toNat h.block.nchan.toNat h.tileBuffer y)) →
      closeSession policy { block := t, tiled := false, tileBuffer := [] } = .next (k, .success) →
      ∀ b, h.block.pixoff.toNat ≤ b → b < h.block.pixoff.toNat + h.block.padlen.toNat * h.block.height.toNat →
        k.block.sink.read b = g.block.sink.read b
end

