-- ==== Sys2Proof/Laws/Config.lean ====
section
/-! SUPPORT. The fixed parameters as numbers. -/

namespace Sys2Proof

@[simp] theorem Config.fileHeaderSize_eq : Config.fileHeaderSize = 14 := rfl
@[simp] theorem Config.dibHeaderSize_eq : Config.dibHeaderSize = 40 := rfl
@[simp] theorem Config.paletteEntries_eq : Config.paletteEntries = 256 := rfl
@[simp] theorem Config.paletteEntrySize_eq : Config.paletteEntrySize = 4 := rfl
@[simp] theorem Config.maxFile_eq : Config.maxFile = 2 ^ 32 := rfl
@[simp] theorem Config.sinkSize_eq : Config.sinkSize = 2 ^ 32 := rfl
@[simp] theorem Config.dimensionLimit_eq : Config.dimensionLimit = 2 ^ 31 := rfl

end Sys2Proof
end

