-- ==== Sys2Proof/Laws/Encoding.lean ====
section
/-! SUPPORT. Fields of command words, register indices and byte frames. -/

namespace Sys2Proof

/-- Which field a bit of a joined word comes from. -/
theorem joinWord_bit (op : BitVec 8) (rsv : BitVec 24) (imm : Word32) (i : Nat) :
    (joinWord op rsv imm).getLsbD i =
      if i < 32 then imm.getLsbD i else if i < 56 then rsv.getLsbD (i - 32) else op.getLsbD (i - 56) := by
  unfold joinWord
  rw [BitVec.getLsbD_append, BitVec.getLsbD_append]
  by_cases h : i < 32
  · simp [h]
  · by_cases h2 : i - 32 < 24
    · have h3 : i < 56 := by omega
      simp [h, h2, h3]
    · have h3 : ¬ i < 56 := by omega
      have e : i - 32 - 24 = i - 56 := by omega
      simp [h, h2, h3, e]

@[simp] theorem opOf_joinWord (op : BitVec 8) (rsv : BitVec 24) (imm : Word32) : opOf (joinWord op rsv imm) = op := by
  apply BitVec.eq_of_getLsbD_eq
  intro i hi
  have h1 : ¬ 56 + i < 32 := by omega
  have h2 : ¬ 56 + i < 56 := by omega
  simp [opOf, joinWord_bit, hi, h1]

@[simp] theorem rsvOf_joinWord (op : BitVec 8) (rsv : BitVec 24) (imm : Word32) : rsvOf (joinWord op rsv imm) = rsv := by
  apply BitVec.eq_of_getLsbD_eq
  intro i hi
  have h2 : 32 + i < 56 := by omega
  simp [rsvOf, joinWord_bit, hi, h2]

@[simp] theorem immOf_joinWord (op : BitVec 8) (rsv : BitVec 24) (imm : Word32) : immOf (joinWord op rsv imm) = imm := by
  apply BitVec.eq_of_getLsbD_eq
  intro i hi
  simp [immOf, joinWord_bit, hi]

/-- A word is its three fields. -/
theorem joinWord_fields (w : Word64) : joinWord (opOf w) (rsvOf w) (immOf w) = w := by
  apply BitVec.eq_of_getLsbD_eq
  intro i hi
  rw [joinWord_bit]
  split
  · simp [immOf, *]
  · split
    · have h : i - 32 < 24 := by omega
      have e : 32 + (i - 32) = i := by omega
      simp [rsvOf, h, e]
    · have h : i - 56 < 8 := by omega
      have e : 56 + (i - 56) = i := by omega
      simp [opOf, h, e]

/-- Words with the same fields are equal, and only those. -/
theorem joinWord_inj {op op' : BitVec 8} {rsv rsv' : BitVec 24} {imm imm' : Word32} :
    joinWord op rsv imm = joinWord op' rsv' imm' ↔ op = op' ∧ rsv = rsv' ∧ imm = imm' := by
  constructor
  · intro h
    exact ⟨by simpa using congrArg opOf h, by simpa using congrArg rsvOf h, by simpa using congrArg immOf h⟩
  · rintro ⟨rfl, rfl, rfl⟩; rfl

/-- Masking works field by field. -/
theorem joinWord_and (op op' : BitVec 8) (rsv rsv' : BitVec 24) (imm imm' : Word32) :
    joinWord op rsv imm &&& joinWord op' rsv' imm' = joinWord (op &&& op') (rsv &&& rsv') (imm &&& imm') := by
  apply BitVec.eq_of_getLsbD_eq
  intro i hi
  rw [BitVec.getLsbD_and]
  simp only [joinWord_bit]
  split
  · simp
  · split <;> simp

/-- Bit 31 of an immediate, as a bound. -/
theorem getLsbD_31_iff (x : Word32) : x.getLsbD 31 = true ↔ 2 ^ 31 ≤ x.toNat := by
  have := x.isLt
  rw [BitVec.getLsbD, Nat.testBit_eq_decide_div_mod_eq]
  simp
  omega

theorem regOfIndex_index (r : Reg) : regOfIndex r.index = some r := by cases r <;> rfl

theorem index_lt (r : Reg) : r.index < 8 := by cases r <;> decide

/-- An index has a register exactly when it is below 8, and the register has that index. -/
theorem index_of_regOfIndex {n : Nat} {r : Reg} (h : regOfIndex n = some r) : r.index = n := by
  unfold regOfIndex at h
  split at h <;> first | (injection h with h; subst h; rfl) | exact absurd h (by simp)

theorem regOfIndex_eq_none (n : Nat) : regOfIndex n = none ↔ 8 ≤ n := by
  constructor
  · intro h
    by_contra hlt
    have hn : n < 8 := by omega
    interval_cases n <;> simp [regOfIndex] at h
  · intro h
    unfold regOfIndex
    split <;> first | omega | rfl

@[simp] theorem leBytes_length (n v : Nat) : (leBytes n v).length = n := by
  induction n generalizing v with
  | zero => rfl
  | succ n ih => simp [leBytes, ih]

/-- Little-endian bytes spell the number back, when it fits. -/
theorem leValue_leBytes (n v : Nat) (h : v < 256 ^ n) : leValue (leBytes n v) = v := by
  induction n generalizing v with
  | zero => simp only [leBytes, leValue]; simp at h; exact h.symm
  | succ n ih =>
    have h' : v / 256 < 256 ^ n := by
      rw [Nat.div_lt_iff_lt_mul (by decide)]
      simpa [Nat.pow_succ] using h
    simp only [leBytes, leValue, ih _ h', BitVec.toNat_ofNat]
    omega

/-- A transaction sent as bytes arrives as it was. -/
theorem transactionOfFrame_frameOf (t : Transaction) : transactionOfFrame (frameOf t) = some t := by
  have hv : leValue (leBytes 8 t.word.toNat) = t.word.toNat := leValue_leBytes 8 _ (by have := t.word.isLt; omega)
  have hlen : ¬ (frameOf t).length < 8 := by simp [frameOf]
  have htake : (frameOf t).take 8 = leBytes 8 t.word.toNat := by
    unfold frameOf
    rw [List.take_append_of_le_length (by simp), List.take_of_length_le (by simp)]
  have hdrop : (frameOf t).drop 8 = t.payload := by
    unfold frameOf
    rw [List.drop_append_of_le_length (by simp), List.drop_of_length_le (by simp)]; rfl
  unfold transactionOfFrame
  rw [if_neg hlen, htake, hdrop, hv]
  simp

end Sys2Proof
end

