-- ==== Sys2Proof/Laws/Memory.lean ====
section
/-! SUPPORT. Sink bytes: read after write, the canonical form, and when two memories are equal. -/

namespace Sys2Proof.Machine

@[simp] theorem Memory.read_nil (a : Nat) : Memory.read [] a = none := rfl

/-- A write to one address is seen at that address and at no other, in canonical form or not. -/
theorem Memory.read_writeByte (m : Memory) (a b : Nat) (v : Byte) :
    (m.writeByte a v).read b = if a = b then some v else m.read b := by
  induction m with
  | nil => simp [Memory.writeByte, Memory.read]
  | cons c m ih =>
    obtain ⟨k, w⟩ := c
    simp only [Memory.writeByte]
    split
    · simp [Memory.read]
    · split
      · subst_vars; simp only [Memory.read]; split <;> simp_all
      · simp only [Memory.read, ih]
        by_cases hk : k = b <;> by_cases ha : a = b <;> simp_all

/-- What a write of one byte may list. -/
theorem Memory.mem_writeByte (m : Memory) (a : Nat) (v : Byte) (p : Host.Cell) (h : p ∈ m.writeByte a v) :
    p = (a, v) ∨ p ∈ m := by
  induction m with
  | nil => simpa [Memory.writeByte] using h
  | cons c m ih =>
    obtain ⟨k, w⟩ := c
    simp only [Memory.writeByte] at h
    split at h
    · simpa using h
    · split at h
      · simp at h; tauto
      · rcases List.mem_cons.mp h with rfl | h
        · simp
        · rcases ih h with h | h <;> simp [h]

theorem Memory.pairwise_writeByte (m : Memory) (a : Nat) (v : Byte) (h : m.Pairwise fun p q => p.1 < q.1) :
    (m.writeByte a v).Pairwise fun p q => p.1 < q.1 := by
  induction m with
  | nil => simp [Memory.writeByte]
  | cons c m ih =>
    obtain ⟨k, w⟩ := c
    obtain ⟨hk, hm⟩ := List.pairwise_cons.mp h
    simp only [Memory.writeByte]
    split
    · rename_i hlt
      refine List.pairwise_cons.mpr ⟨?_, h⟩
      intro q hq
      rcases List.mem_cons.mp hq with rfl | hq
      · exact hlt
      · exact Nat.lt_trans hlt (hk q hq)
    · split
      · subst_vars; exact List.pairwise_cons.mpr ⟨hk, hm⟩
      · refine List.pairwise_cons.mpr ⟨?_, ih hm⟩
        intro q hq
        rcases Memory.mem_writeByte m a v q hq with rfl | hq
        · show k < a; omega
        · exact hk q hq

/-- Writing a byte at a sink address keeps the canonical form. -/
theorem Memory.wf_writeByte {m : Memory} {a : Nat} (v : Byte) (h : m.wf) (ha : a < Config.sinkSize) :
    (m.writeByte a v).wf := by
  refine ⟨Memory.pairwise_writeByte m a v h.1, ?_⟩
  intro p hp
  rcases Memory.mem_writeByte m a v p hp with rfl | hp
  · exact ha
  · exact h.2 p hp

/-- Writing a byte sequence inside the sink keeps the canonical form. -/
theorem Memory.wf_writeBytes (bs : List Byte) {m : Memory} {a : Nat} (h : m.wf) (ha : a + bs.length ≤ Config.sinkSize) :
    (m.writeBytes a bs).wf := by
  induction bs generalizing m a with
  | nil => exact h
  | cons b bs ih =>
    simp only [List.length_cons] at ha
    exact ih (Memory.wf_writeByte b h (by omega)) (by omega)

theorem Memory.pairwise_writeBytes (bs : List Byte) (m : Memory) (a : Nat) (h : m.Pairwise fun p q => p.1 < q.1) :
    (m.writeBytes a bs).Pairwise fun p q => p.1 < q.1 := by
  induction bs generalizing m a with
  | nil => exact h
  | cons b bs ih => exact ih _ _ (Memory.pairwise_writeByte m a b h)

/-- A write of a byte sequence is seen byte for byte, and nowhere else. -/
theorem Memory.read_writeBytes (bs : List Byte) (m : Memory) (a b : Nat) :
    (m.writeBytes a bs).read b = if a ≤ b ∧ b < a + bs.length then bs[b - a]? else m.read b := by
  induction bs generalizing m a with
  | nil => simp only [Memory.writeBytes, List.length_nil]; rw [if_neg (by omega)]
  | cons c bs ih =>
    simp only [Memory.writeBytes, List.length_cons]
    rw [ih, Memory.read_writeByte]
    by_cases hab : a = b
    · subst hab
      simp
    · by_cases hlt : a + 1 ≤ b ∧ b < a + 1 + bs.length
      · have e : b - a = (b - (a + 1)) + 1 := by omega
        rw [if_pos hlt, if_pos (by omega), e, List.getElem?_cons_succ]
      · rw [if_neg hlt, if_neg hab, if_neg (by omega)]

/-- An address outside the stored bytes reads as before. -/
theorem Memory.read_writeBytes_outside {bs : List Byte} {m : Memory} {a b : Nat}
    (hb : b < a ∨ a + bs.length ≤ b) : (m.writeBytes a bs).read b = m.read b := by
  rw [Memory.read_writeBytes, if_neg (by omega)]

/-- Stored byte `i` is read at `a + i`. -/
theorem Memory.read_writeBytes_inside {bs : List Byte} {m : Memory} {a i : Nat} (hi : i < bs.length) :
    (m.writeBytes a bs).read (a + i) = bs[i]? := by
  rw [Memory.read_writeBytes, if_pos (by omega), Nat.add_sub_cancel_left]

theorem Memory.read_of_lt (m : Memory) (a : Nat) (h : ∀ p ∈ m, a < p.1) : m.read a = none := by
  induction m with
  | nil => rfl
  | cons c m ih =>
    obtain ⟨k, w⟩ := c
    have := h (k, w) (by simp)
    simp only [Memory.read]
    rw [if_neg (by simp at this; omega)]
    exact ih fun p hp => h p (by simp [hp])

/-- Two memories in canonical form that read alike everywhere are equal. -/
theorem Memory.eq_of_read {m n : Memory} (hm : m.Pairwise fun p q => p.1 < q.1) (hn : n.Pairwise fun p q => p.1 < q.1)
    (h : ∀ a, m.read a = n.read a) : m = n := by
  induction m generalizing n with
  | nil =>
    cases n with
    | nil => rfl
    | cons c n => have := h c.1; simp [Memory.read] at this
  | cons c m ih =>
    cases n with
    | nil => have := h c.1; simp [Memory.read] at this
    | cons d n =>
      obtain ⟨k, v⟩ := c
      obtain ⟨l, w⟩ := d
      obtain ⟨hk, hm'⟩ := List.pairwise_cons.mp hm
      obtain ⟨hl, hn'⟩ := List.pairwise_cons.mp hn
      have hkl : k = l := by
        rcases Nat.lt_trichotomy k l with hlt | rfl | hlt
        · have := h k
          rw [Memory.read_of_lt ((l, w) :: n) k] at this
          · simp [Memory.read] at this
          · intro p hp
            rcases List.mem_cons.mp hp with rfl | hp
            · exact hlt
            · exact Nat.lt_trans hlt (hl p hp)
        · rfl
        · have := h l
          rw [Memory.read_of_lt ((k, v) :: m) l] at this
          · simp [Memory.read] at this
          · intro p hp
            rcases List.mem_cons.mp hp with rfl | hp
            · exact hlt
            · exact Nat.lt_trans hlt (hk p hp)
      subst hkl
      have hv : v = w := by simpa [Memory.read] using h k
      subst hv
      congr 1
      refine ih hm' hn' fun a => ?_
      by_cases ha : k = a
      · subst ha
        rw [Memory.read_of_lt m k hk, Memory.read_of_lt n k hl]
      · have := h a
        simpa [Memory.read, ha] using this

/-- An address at or past the file's length is unwritten. -/
theorem Memory.read_past_fileLength (m : Memory) (a : Nat) (h : m.fileLength ≤ a) : m.read a = none := by
  induction m with
  | nil => rfl
  | cons c m ih =>
    obtain ⟨k, v⟩ := c
    simp only [Memory.fileLength] at h
    simp only [Memory.read]
    rw [if_neg (by omega)]
    exact ih (by omega)

/-- The last address below the file's length is written. -/
theorem Memory.read_last (m : Memory) (hm : m.Pairwise fun p q => p.1 < q.1) (h : m ≠ []) :
    ∃ v, m.read (Memory.fileLength m - 1) = some v := by
  induction m with
  | nil => exact absurd rfl h
  | cons c m ih =>
    obtain ⟨k, v⟩ := c
    obtain ⟨hk, hm⟩ := List.pairwise_cons.mp hm
    by_cases hmn : m = []
    · subst hmn; exact ⟨v, by simp [Memory.read, Memory.fileLength]⟩
    · obtain ⟨w, hw⟩ := ih hm hmn
      have hlt : k + 1 < Memory.fileLength m := by
        cases m with
        | nil => exact absurd rfl hmn
        | cons d m =>
          obtain ⟨l, u⟩ := d
          have := hk (l, u) (by simp)
          simp only [Memory.fileLength]
          simp at this
          omega
      refine ⟨w, ?_⟩
      have e : Memory.fileLength ((k, v) :: m) = Memory.fileLength m := by simp only [Memory.fileLength]; omega
      rw [e]
      simp only [Memory.read]
      rw [if_neg (by omega)]
      exact hw

end Sys2Proof.Machine
end

