-- ==== Sys2Proof/Laws/Rows.lean ====
section
/-! SUPPORT. The size formulas, the row address, and the reorder and padding of a row. -/

namespace Sys2Proof.Machine

/-! ## Formulas -/

theorem padLength_mod (w c : Nat) : padLength w c % 4 = 0 := by unfold padLength; omega

theorem le_padLength (w c : Nat) : w * c ≤ padLength w c := by unfold padLength; omega

theorem padLength_lt (w c : Nat) : padLength w c < w * c + 4 := by unfold padLength; omega

theorem pixelOffset_one : pixelOffset 1 = 1078 := rfl
theorem pixelOffset_three : pixelOffset 3 = 54 := rfl
theorem pixelOffset_four : pixelOffset 4 = 54 := rfl

theorem pixelOffset_lt (c : Nat) : pixelOffset c < 2 ^ 32 := by
  unfold pixelOffset
  split <;> decide

/-- A legal channel count's pixel offset. -/
theorem pixelOffset_legal {c : Nat} (h : LegalChannels c) : pixelOffset c = 1078 ∨ pixelOffset c = 54 := by
  rcases h with rfl | rfl | rfl
  · exact .inl rfl
  · exact .inr rfl
  · exact .inr rfl

/-- The padded length of a legal geometry fits the 33 bits of `PADLEN` (40_config.md R108). -/
theorem padLength_fits {w c : Nat} (hw : w < 2 ^ 31) (hc : LegalChannels c) : padLength w c < 2 ^ 33 := by
  have := padLength_lt w c
  rcases hc with rfl | rfl | rfl <;> unfold padLength <;> omega

/-- A row of the image ends inside the pixel region (41_encode.md R127). -/
theorem diskRow_end {h y : Nat} (n : Nat) (hy : y < h) : diskRow h y * n + n ≤ n * h := by
  have h1 : diskRow h y + 1 ≤ h := by unfold diskRow; omega
  have h2 : (diskRow h y + 1) * n ≤ h * n := Nat.mul_le_mul_right n h1
  rw [Nat.add_mul, Nat.one_mul] at h2
  rw [Nat.mul_comm n h]
  exact h2

/-! ## Reorder -/

@[simp] theorem swapGroup_length (g : List Byte) : (swapGroup g).length = g.length := by
  unfold swapGroup; split <;> simp

@[simp] theorem swapGroup_swapGroup (g : List Byte) : swapGroup (swapGroup g) = g := by
  match g with
  | [] => rfl
  | [_] => rfl
  | [_, _] => rfl
  | _ :: _ :: _ :: _ => rfl

@[simp] theorem swapGroups_length (c n : Nat) (rb : List Byte) : (swapGroups c n rb).length = rb.length := by
  induction n generalizing rb with
  | zero => rfl
  | succ n ih => simp [swapGroups, ih]; omega

/-- The reorder of groups is its own inverse (41_encode.md R125). -/
theorem swapGroups_swapGroups (c n : Nat) (rb : List Byte) : swapGroups c n (swapGroups c n rb) = rb := by
  induction n generalizing rb with
  | zero => rfl
  | succ n ih =>
    simp only [swapGroups]
    by_cases h : c ≤ rb.length
    · have hl : (swapGroup (rb.take c)).length = c := by simp [h]
      rw [List.take_append_of_le_length (by omega), List.drop_append_of_le_length (by omega),
        List.take_of_length_le (by omega), List.drop_of_length_le (by omega)]
      simp [ih]
    · have h2 : rb.drop c = [] := List.drop_of_length_le (by omega)
      have h3 : swapGroups c n [] = [] := List.length_eq_zero_iff.mp (by simp)
      rw [h2, h3, List.append_nil, List.take_of_length_le (by simp), List.drop_of_length_le (by simp), h3]
      rw [List.take_of_length_le (by omega)]
      simp

@[simp] theorem reorderRow_length (w c : Nat) (rb : List Byte) : (reorderRow w c rb).length = rb.length := by
  unfold reorderRow; split <;> simp

theorem reorderRow_reorderRow (w c : Nat) (rb : List Byte) : reorderRow w c (reorderRow w c rb) = rb := by
  unfold reorderRow; split
  · exact swapGroups_swapGroups c w rb
  · rfl

/-- Byte `i` of a swapped group. -/
theorem swapGroup_getElem? (g : List Byte) (i : Nat) (h : 3 ≤ g.length) :
    (swapGroup g)[i]? = g[if i = 0 then 2 else if i = 2 then 0 else i]? := by
  match g, h with
  | a :: b :: c :: rest, _ =>
    match i with
    | 0 => rfl
    | 1 => rfl
    | 2 => rfl
    | i + 3 => simp [swapGroup]

/-- Byte `i` after the reorder comes from the index that the permutation of 41_encode.md R125 names. -/
theorem swapGroups_getElem? (c n : Nat) (hc : 3 ≤ c) (rb : List Byte) (hl : rb.length = n * c) (i : Nat) (hi : i < n * c) :
    (swapGroups c n rb)[i]? = rb[sourceIndex c i]? := by
  induction n generalizing rb i with
  | zero => simp at hi
  | succ n ih =>
    have hlc : c ≤ rb.length := by rw [hl, Nat.succ_mul]; omega
    have htl : (rb.take c).length = c := by simp [hlc]
    have hsl : (swapGroup (rb.take c)).length = c := by simp [hlc]
    have hnc : ¬ c < 3 := by omega
    simp only [swapGroups]
    by_cases h : i < c
    · rw [List.getElem?_append_left (by omega), swapGroup_getElem? _ _ (by omega), List.getElem?_take_of_lt]
      · unfold sourceIndex
        rw [if_neg hnc, Nat.mod_eq_of_lt h]
        split
        · subst_vars; rfl
        · split
          · subst_vars; rfl
          · rfl
      · split
        · omega
        · split <;> omega
    · have hi' : i - c < n * c := by rw [Nat.succ_mul] at hi; omega
      rw [List.getElem?_append_right (by omega), hsl, ih (rb.drop c) (by rw [List.length_drop, hl, Nat.succ_mul]; omega) _ hi',
        List.getElem?_drop]
      have hmod : (i - c) % c = i % c := by
        conv => rhs; rw [show i = (i - c) + c by omega, Nat.add_mod_right]
      have e : c + sourceIndex c (i - c) = sourceIndex c i := by
        unfold sourceIndex
        rw [if_neg hnc, if_neg hnc, hmod]
        split
        · omega
        · split
          · rename_i h2
            have : 2 ≤ i - c := by have := Nat.mod_le (i - c) c; omega
            omega
          · omega
      rw [e]

/-- The permutation stays inside the row. -/
theorem sourceIndex_lt {w c i : Nat} (hc : LegalChannels c) (hi : i < w * c) : sourceIndex c i < w * c := by
  unfold sourceIndex
  rcases hc with rfl | rfl | rfl <;> simp <;> (repeat' split) <;> omega

theorem reorderRow_getElem? {w c : Nat} {rb : List Byte} (hl : rb.length = w * c) {i : Nat} (hi : i < w * c) :
    (reorderRow w c rb)[i]? = rb[sourceIndex c i]? := by
  unfold reorderRow
  split
  · exact swapGroups_getElem? c w ‹_› rb hl i hi
  · unfold sourceIndex; rw [if_pos (by omega)]

/-! ## Padding -/

theorem padRow_length (n : Nat) (rb : List Byte) : (padRow n rb).length = max n rb.length := by
  simp [padRow]; omega

/-- Byte `i` of a padded row: the row's own, then zero (41_encode.md R126). -/
theorem padRow_getElem? {n : Nat} {rb : List Byte} {i : Nat} (hi : i < n) (hl : rb.length ≤ n) :
    (padRow n rb)[i]? = if i < rb.length then rb[i]? else some 0 := by
  unfold padRow
  split
  · rw [List.getElem?_append_left ‹_›]
  · rw [List.getElem?_append_right (by omega), List.getElem?_replicate, if_pos (by omega)]

/-- The bytes offered to the sink are `PADLEN` bytes, in every state. -/
@[simp] theorem diskBytes_length (s : State) (payload : List Byte) : (diskBytes s payload).length = s.padlen.toNat := by
  simp [diskBytes, rowBuffer, padRow_length]

end Sys2Proof.Machine
end

