-- ==== Sys2Proof/Laws/State.lean ====
section
/-! SUPPORT. What each named update of the state does to each field. -/

namespace Sys2Proof.Machine

/-! ## A response -/

@[simp] theorem answer_width (e : ErrorKind) (v : BitVec 56) (s : State) : (answer e v s).width = s.width := rfl
@[simp] theorem answer_height (e : ErrorKind) (v : BitVec 56) (s : State) : (answer e v s).height = s.height := rfl
@[simp] theorem answer_nchan (e : ErrorKind) (v : BitVec 56) (s : State) : (answer e v s).nchan = s.nchan := rfl
@[simp] theorem answer_pixoff (e : ErrorKind) (v : BitVec 56) (s : State) : (answer e v s).pixoff = s.pixoff := rfl
@[simp] theorem answer_padlen (e : ErrorKind) (v : BitVec 56) (s : State) : (answer e v s).padlen = s.padlen := rfl
@[simp] theorem answer_st (e : ErrorKind) (v : BitVec 56) (s : State) : (answer e v s).st = s.st := rfl
@[simp] theorem answer_poison (e : ErrorKind) (v : BitVec 56) (s : State) : (answer e v s).poison = s.poison := rfl
@[simp] theorem answer_faultCode (e : ErrorKind) (v : BitVec 56) (s : State) : (answer e v s).faultCode = s.faultCode := rfl
@[simp] theorem answer_rowcnt (e : ErrorKind) (v : BitVec 56) (s : State) : (answer e v s).rowcnt = s.rowcnt := rfl
@[simp] theorem answer_rowbuf (e : ErrorKind) (v : BitVec 56) (s : State) : (answer e v s).rowbuf = s.rowbuf := rfl
@[simp] theorem answer_sink (e : ErrorKind) (v : BitVec 56) (s : State) : (answer e v s).sink = s.sink := rfl
@[simp] theorem answer_sinkPos (e : ErrorKind) (v : BitVec 56) (s : State) : (answer e v s).sinkPos = s.sinkPos := rfl
@[simp] theorem answer_releases (e : ErrorKind) (v : BitVec 56) (s : State) : (answer e v s).releases = s.releases := rfl
@[simp] theorem answer_responses (e : ErrorKind) (v : BitVec 56) (s : State) : (answer e v s).responses = s.responses ++ [responseWord e v] := rfl
@[simp] theorem answer_inbox (e : ErrorKind) (v : BitVec 56) (s : State) : (answer e v s).inbox = s.inbox := rfl
@[simp] theorem answer_sinkAnswers (e : ErrorKind) (v : BitVec 56) (s : State) : (answer e v s).sinkAnswers = s.sinkAnswers := rfl
@[simp] theorem answer_sinkWrites (e : ErrorKind) (v : BitVec 56) (s : State) : (answer e v s).sinkWrites = s.sinkWrites := rfl

/-! ## A release event -/

@[simp] theorem sinkRelease_width (s : State) : (sinkRelease s).width = s.width := rfl
@[simp] theorem sinkRelease_height (s : State) : (sinkRelease s).height = s.height := rfl
@[simp] theorem sinkRelease_nchan (s : State) : (sinkRelease s).nchan = s.nchan := rfl
@[simp] theorem sinkRelease_pixoff (s : State) : (sinkRelease s).pixoff = s.pixoff := rfl
@[simp] theorem sinkRelease_padlen (s : State) : (sinkRelease s).padlen = s.padlen := rfl
@[simp] theorem sinkRelease_st (s : State) : (sinkRelease s).st = s.st := rfl
@[simp] theorem sinkRelease_poison (s : State) : (sinkRelease s).poison = s.poison := rfl
@[simp] theorem sinkRelease_faultCode (s : State) : (sinkRelease s).faultCode = s.faultCode := rfl
@[simp] theorem sinkRelease_rowcnt (s : State) : (sinkRelease s).rowcnt = s.rowcnt := rfl
@[simp] theorem sinkRelease_rowbuf (s : State) : (sinkRelease s).rowbuf = s.rowbuf := rfl
@[simp] theorem sinkRelease_sink (s : State) : (sinkRelease s).sink = s.sink := rfl
@[simp] theorem sinkRelease_sinkPos (s : State) : (sinkRelease s).sinkPos = s.sinkPos := rfl
@[simp] theorem sinkRelease_releases (s : State) : (sinkRelease s).releases = s.releases + 1 := rfl
@[simp] theorem sinkRelease_responses (s : State) : (sinkRelease s).responses = s.responses := rfl
@[simp] theorem sinkRelease_inbox (s : State) : (sinkRelease s).inbox = s.inbox := rfl
@[simp] theorem sinkRelease_sinkAnswers (s : State) : (sinkRelease s).sinkAnswers = s.sinkAnswers := rfl
@[simp] theorem sinkRelease_sinkWrites (s : State) : (sinkRelease s).sinkWrites = s.sinkWrites := rfl

/-! ## A successful bind -/

@[simp] theorem boundState_width (s : State) : (boundState s).width = s.width := rfl
@[simp] theorem boundState_height (s : State) : (boundState s).height = s.height := rfl
@[simp] theorem boundState_nchan (s : State) : (boundState s).nchan = s.nchan := rfl
@[simp] theorem boundState_pixoff (s : State) : (boundState s).pixoff = BitVec.ofNat 32 (pixelOffset s.nchan.toNat) := rfl
@[simp] theorem boundState_padlen (s : State) : (boundState s).padlen = BitVec.ofNat 33 (padLength s.width.toNat s.nchan.toNat) := rfl
@[simp] theorem boundState_st (s : State) : (boundState s).st = .opened := rfl
@[simp] theorem boundState_poison (s : State) : (boundState s).poison = s.poison := rfl
@[simp] theorem boundState_faultCode (s : State) : (boundState s).faultCode = s.faultCode := rfl
@[simp] theorem boundState_rowcnt (s : State) : (boundState s).rowcnt = 0 := rfl
@[simp] theorem boundState_rowbuf (s : State) : (boundState s).rowbuf = s.rowbuf := rfl
@[simp] theorem boundState_sink (s : State) : (boundState s).sink = s.sink := rfl
@[simp] theorem boundState_sinkPos (s : State) : (boundState s).sinkPos = s.sinkPos := rfl
@[simp] theorem boundState_releases (s : State) : (boundState s).releases = s.releases := rfl
@[simp] theorem boundState_responses (s : State) : (boundState s).responses = s.responses := rfl
@[simp] theorem boundState_inbox (s : State) : (boundState s).inbox = s.inbox := rfl
@[simp] theorem boundState_sinkAnswers (s : State) : (boundState s).sinkAnswers = s.sinkAnswers := rfl
@[simp] theorem boundState_sinkWrites (s : State) : (boundState s).sinkWrites = s.sinkWrites := rfl

/-! ## Reset in any state -/

@[simp] theorem blockReset_width (s : State) : (blockReset s).width = 0 := rfl
@[simp] theorem blockReset_height (s : State) : (blockReset s).height = 0 := rfl
@[simp] theorem blockReset_nchan (s : State) : (blockReset s).nchan = 0 := rfl
@[simp] theorem blockReset_pixoff (s : State) : (blockReset s).pixoff = 0 := rfl
@[simp] theorem blockReset_padlen (s : State) : (blockReset s).padlen = 0 := rfl
@[simp] theorem blockReset_st (s : State) : (blockReset s).st = .unopened := rfl
@[simp] theorem blockReset_poison (s : State) : (blockReset s).poison = false := rfl
@[simp] theorem blockReset_faultCode (s : State) : (blockReset s).faultCode = 0 := rfl
@[simp] theorem blockReset_rowcnt (s : State) : (blockReset s).rowcnt = 0 := rfl
@[simp] theorem blockReset_rowbuf (s : State) : (blockReset s).rowbuf = [] := rfl
@[simp] theorem blockReset_sink (s : State) : (blockReset s).sink = s.sink := rfl
@[simp] theorem blockReset_sinkPos (s : State) : (blockReset s).sinkPos = s.sinkPos := rfl
@[simp] theorem blockReset_releases (s : State) : (blockReset s).releases = 0 := rfl
@[simp] theorem blockReset_responses (s : State) : (blockReset s).responses = [] := rfl
@[simp] theorem blockReset_inbox (s : State) : (blockReset s).inbox = s.inbox := rfl
@[simp] theorem blockReset_sinkAnswers (s : State) : (blockReset s).sinkAnswers = s.sinkAnswers := rfl
@[simp] theorem blockReset_sinkWrites (s : State) : (blockReset s).sinkWrites = s.sinkWrites := rfl

/-! ## A word placed for the next step -/

@[simp] theorem withFetchWord_width (s : State) (nbits w : Nat) : (s.withFetchWord nbits w).width = s.width := rfl
@[simp] theorem withFetchWord_height (s : State) (nbits w : Nat) : (s.withFetchWord nbits w).height = s.height := rfl
@[simp] theorem withFetchWord_nchan (s : State) (nbits w : Nat) : (s.withFetchWord nbits w).nchan = s.nchan := rfl
@[simp] theorem withFetchWord_pixoff (s : State) (nbits w : Nat) : (s.withFetchWord nbits w).pixoff = s.pixoff := rfl
@[simp] theorem withFetchWord_padlen (s : State) (nbits w : Nat) : (s.withFetchWord nbits w).padlen = s.padlen := rfl
@[simp] theorem withFetchWord_st (s : State) (nbits w : Nat) : (s.withFetchWord nbits w).st = s.st := rfl
@[simp] theorem withFetchWord_poison (s : State) (nbits w : Nat) : (s.withFetchWord nbits w).poison = s.poison := rfl
@[simp] theorem withFetchWord_faultCode (s : State) (nbits w : Nat) : (s.withFetchWord nbits w).faultCode = s.faultCode := rfl
@[simp] theorem withFetchWord_rowcnt (s : State) (nbits w : Nat) : (s.withFetchWord nbits w).rowcnt = s.rowcnt := rfl
@[simp] theorem withFetchWord_rowbuf (s : State) (nbits w : Nat) : (s.withFetchWord nbits w).rowbuf = s.rowbuf := rfl
@[simp] theorem withFetchWord_sink (s : State) (nbits w : Nat) : (s.withFetchWord nbits w).sink = s.sink := rfl
@[simp] theorem withFetchWord_sinkPos (s : State) (nbits w : Nat) : (s.withFetchWord nbits w).sinkPos = s.sinkPos := rfl
@[simp] theorem withFetchWord_releases (s : State) (nbits w : Nat) : (s.withFetchWord nbits w).releases = s.releases := rfl
@[simp] theorem withFetchWord_responses (s : State) (nbits w : Nat) : (s.withFetchWord nbits w).responses = s.responses := rfl
@[simp] theorem withFetchWord_inbox (s : State) (nbits w : Nat) : (s.withFetchWord nbits w).inbox = tableTransaction nbits w :: s.inbox := rfl
@[simp] theorem withFetchWord_sinkAnswers (s : State) (nbits w : Nat) : (s.withFetchWord nbits w).sinkAnswers = s.sinkAnswers := rfl
@[simp] theorem withFetchWord_sinkWrites (s : State) (nbits w : Nat) : (s.withFetchWord nbits w).sinkWrites = s.sinkWrites := rfl

end Sys2Proof.Machine
end

