-- ==== Sys2Proof/Laws/Ops.lean ====
section
/-! SUPPORT. What each shared operation can do, once each. -/

namespace Sys2Proof.Machine

/-- `SinkSeek` answers only for a sink address, and moves only the position (20_memory.md R60). -/
theorem sinkSeek_eq_ok {a : Nat} {s t : State} : sinkSeek a s = .ok t ↔ a < Config.sinkSize ∧ t = { s with sinkPos := a } := by
  unfold sinkSeek
  split <;> simp_all [eq_comm]

theorem acceptedCount_le (len : Nat) (s : State) : acceptedCount len s ≤ len := Nat.min_le_right _ _

/-- A full write accepts all that is offered. -/
theorem acceptedCount_full {len : Nat} {s : State} (h : len ≤ sinkOffer s) : acceptedCount len s = len :=
  Nat.min_eq_right h

/-- The environment's next answer does not depend on anything a command writes before its sink write. -/
theorem sinkOffer_congr {s t : State} (ha : t.sinkAnswers = s.sinkAnswers) (hw : t.sinkWrites = s.sinkWrites) :
    sinkOffer t = sinkOffer s := by
  unfold sinkOffer; rw [ha, hw]

/-- What `SinkWrite` does when it answers (20_memory.md R61). -/
theorem sinkWrite_eq_ok {bs : List Byte} {s t : State} {n : Nat} :
    sinkWrite bs s = .ok (n, t) ↔
      s.sinkPos + acceptedCount bs.length s ≤ Config.sinkSize ∧ n = acceptedCount bs.length s ∧
      t = { s with
        sink := s.sink.writeBytes s.sinkPos (bs.take (acceptedCount bs.length s))
        sinkPos := s.sinkPos + acceptedCount bs.length s
        sinkAnswers := s.sinkAnswers.tail
        sinkWrites := s.sinkWrites + 1 } := by
  unfold sinkWrite
  split <;> simp_all [eq_comm]

/-- Every response ends its command with a next state. -/
@[simp] theorem respond_eq (e : ErrorKind) (v : BitVec 56) (s : State) : respond e v s = .next (answer e v s) := rfl

@[simp] theorem raiseError_eq (e : ErrorKind) (s : State) : raiseError e s = .next (answer e 0 s) := rfl

/-- The abort sequence in one update (60_exceptions.md R161). -/
theorem abortSession_eq (e : ErrorKind) (s : State) :
    abortSession e s = .next { s with
      faultCode := e.code, poison := true, st := .closed, releases := s.releases + 1,
      responses := s.responses ++ [responseWord e 0] } := rfl

/-- `ERR` and `VAL` of a response word. -/
@[simp] theorem errOf_responseWord (e : ErrorKind) (v : BitVec 56) : errOf (responseWord e v) = e.code := by
  apply BitVec.eq_of_getLsbD_eq
  intro i hi
  have h : ¬ 56 + i < 56 := by omega
  simp only [errOf, responseWord, BitVec.getLsbD_extractLsb', BitVec.getLsbD_append, hi, decide_true, Bool.true_and, h,
    if_false, Nat.add_sub_cancel_left]

@[simp] theorem valOf_responseWord (e : ErrorKind) (v : BitVec 56) : valOf (responseWord e v) = v := by
  apply BitVec.eq_of_getLsbD_eq
  intro i hi
  simp only [valOf, responseWord, BitVec.getLsbD_extractLsb', BitVec.getLsbD_append, hi, decide_true, Bool.true_and,
    Nat.zero_add]
  simp [hi]

/-- A code names its error. -/
theorem errorOfCode_code (e : ErrorKind) : errorOfCode e.code.toNat = some e := by cases e <;> rfl

/-- The saturating count, as numbers (10_state.md R28). -/
theorem rowcntNext_toNat (n : BitVec 32) : (rowcntNext n).toNat = min (n.toNat + 1) 4294967295 := by
  unfold rowcntNext
  rw [BitVec.toNat_ofNat]
  omega

end Sys2Proof.Machine
end

