-- ==== Sys2Proof/Laws/PerInstr.lean ====
section
/-! SUPPORT. Statements made of each constructor of Instr, as syntax. -/

namespace Sys2Proof.Laws.EncodedFields

/-- The fields of an encoded command are its opcode, 0, its immediate and its payload (30_encoding.md R81, R83). -/
abbrev Statement (i : Instr) : Prop :=
  opOf (encode i).word = i.opcode ∧ rsvOf (encode i).word = 0 ∧ immOf (encode i).word = i.immediate ∧
  (encode i).payload = i.payload

theorem setw (imm : Word32) : Statement (.setw imm) := by simp [Statement, encode]
theorem seth (imm : Word32) : Statement (.seth imm) := by simp [Statement, encode]
theorem setc (imm : Word32) : Statement (.setc imm) := by simp [Statement, encode]
theorem bind : Statement .bind := by simp [Statement, encode]
theorem enc (row : Word32) (payload : List Byte) : Statement (.enc row payload) := by simp [Statement, encode]
theorem rel : Statement .rel := by simp [Statement, encode]
theorem rd (reg : Reg) : Statement (.rd reg) := by simp [Statement, encode]

end Sys2Proof.Laws.EncodedFields
end

