-- ==== Sys2Proof/Laws/Session.lean ====
section
/-! SUPPORT. The host's sequences and the session: what each function can do, and the bytes of the tile buffer. -/

namespace Sys2Proof.Machine

/-! ## The Header Builder's write -/

theorem writeHeaders_eq_ok {w h c : Nat} {res : Resolution} {s t : State} :
    writeHeaders w h c res s = .ok t ↔
      s.sinkPos + (headerRegion w h c res).length ≤ Config.sinkSize ∧
      t = { s with
        sink := s.sink.writeBytes s.sinkPos (headerRegion w h c res)
        sinkPos := s.sinkPos + (headerRegion w h c res).length } := by
  unfold writeHeaders
  split <;> simp_all [eq_comm]

/-! ## A call of the session -/

@[simp] theorem HostSession.run_next (h : HostSession) (t : State) (result : State → SessionResult) :
    h.run (.next t) result = .next ({ h with block := t }, result t) := rfl
@[simp] theorem HostSession.run_fault (h : HostSession) (f : Fault) (result : State → SessionResult) :
    h.run (.fault f) result = .fault (.machine f) := rfl
@[simp] theorem HostSession.run_refused (h : HostSession) (r : Refusal) (result : State → SessionResult) :
    h.run (.refused r) result = .refused r := rfl

/-- Outside `OPEN` a close is `REL` alone, whatever the tile buffer (30_encoding.md R95). -/
theorem closeSequence_not_opened {s : State} (h : s.st ≠ .opened) (tileBuffer : Option (List Byte)) :
    closeSequence tileBuffer s = sendCommand .rel s := if_neg h

/-- A close without a tile buffer is `REL` alone. -/
theorem closeSequence_none (s : State) : closeSequence none s = sendCommand .rel s := by
  unfold closeSequence; split <;> rfl

/-- Outside `OPEN` a close reports what its commands answered. -/
theorem closeResult_not_opened {s : State} (h : s.st ≠ .opened) (policy : UnderwritePolicy) (t : State) :
    closeResult policy s t = sessionResult s t := if_neg fun hh => h hh.2.1

/-- A replay is a sequence of `ENC` commands (30_encoding.md R94). -/
theorem replayCommands_eq (w h c : Nat) (buf : List Byte) :
    replayCommands w h c buf =
      encCommands ((List.range h).map fun y => (BitVec.ofNat 32 y, bufferRow w c buf y)) := by
  simp [replayCommands, encCommands]

/-! ## The tile buffer -/

theorem overwriteAt_length {buf : List Byte} {a : Nat} {bs : List Byte} (h : a + bs.length ≤ buf.length) :
    (overwriteAt buf a bs).length = buf.length := by simp [overwriteAt]; omega

theorem overwriteAt_getElem? {buf : List Byte} {a : Nat} {bs : List Byte} (h : a + bs.length ≤ buf.length) (i : Nat) :
    (overwriteAt buf a bs)[i]? = if a ≤ i ∧ i < a + bs.length then bs[i - a]? else buf[i]? := by
  unfold overwriteAt
  simp only [List.append_assoc, List.getElem?_append, List.getElem?_take, List.getElem?_drop, List.length_take]
  rw [Nat.min_eq_left (by omega)]
  by_cases h1 : i < a
  · rw [if_pos h1, if_pos h1, if_neg (by omega)]
  · by_cases h2 : i < a + bs.length
    · rw [if_neg h1, if_pos (by omega), if_pos (by omega)]
    · rw [if_neg h1, if_neg (by omega), if_neg (by omega)]
      congr 1; omega

/-- Where a digit of base `c` puts a number among multiples of `c`. -/
theorem base_range {A P c k t : Nat} (hk : k < c) : (A * c ≤ P * c + k ∧ P * c + k < A * c + t * c) ↔ A ≤ P ∧ P < A + t := by
  rw [← Nat.add_mul]
  constructor
  · rintro ⟨h1, h2⟩
    refine ⟨?_, ?_⟩
    · by_contra h
      have := Nat.mul_le_mul_right c (show P + 1 ≤ A by omega)
      rw [Nat.succ_mul] at this; omega
    · by_contra h
      have := Nat.mul_le_mul_right c (show A + t ≤ P by omega)
      omega
  · rintro ⟨h1, h2⟩
    refine ⟨by have := Nat.mul_le_mul_right c h1; omega, ?_⟩
    have := Nat.mul_le_mul_right c (show P + 1 ≤ A + t by omega)
    rw [Nat.succ_mul] at this; omega

/-- A pixel lies in a row's stretch of `t` pixels from column `x` exactly when it is in that row and those columns. -/
theorem pixel_range {w x y px py t : Nat} (hp : px < w) (hx : x + t ≤ w) :
    (y * w + x ≤ py * w + px ∧ py * w + px < y * w + x + t) ↔ py = y ∧ x ≤ px ∧ px < x + t := by
  rcases Nat.lt_trichotomy py y with h | rfl | h
  · have := Nat.mul_le_mul_right w (show py + 1 ≤ y from h)
    rw [Nat.succ_mul] at this; omega
  · omega
  · have := Nat.mul_le_mul_right w (show y + 1 ≤ py from h)
    rw [Nat.succ_mul] at this; omega

/-- A row of a tile inside the image ends inside the buffer. -/
theorem tile_row_end {w c x y t len : Nat} (hx : x + t ≤ w) (hy : (y + 1) * w * c ≤ len) : (y * w + x) * c + t * c ≤ len := by
  rw [← Nat.add_mul]
  refine le_trans (Nat.mul_le_mul_right c ?_) hy
  rw [Nat.succ_mul]; omega

theorem copyTile_length {w c x tw : Nat} (hx : x + tw ≤ w) (n : Nat) :
    ∀ (y : Nat) (samples buf : List Byte), (y + n) * w * c ≤ buf.length → samples.length = tw * n * c →
      (copyTile w c x y tw n samples buf).length = buf.length := by
  induction n with
  | zero => intro y samples buf _ _; rfl
  | succ n ih =>
    intro y samples buf hb hs
    have hs' : samples.length = tw * c + tw * n * c := by rw [hs]; ring
    have hlen : (samples.take (tw * c)).length = tw * c := by simp; omega
    have hy : (y + 1) * w * c ≤ buf.length :=
      le_trans (Nat.mul_le_mul_right c (Nat.mul_le_mul_right w (by omega))) hb
    have ho : (overwriteAt buf ((y * w + x) * c) (samples.take (tw * c))).length = buf.length :=
      overwriteAt_length (by rw [hlen]; exact tile_row_end hx hy)
    rw [copyTile, ih _ _ _ (by rw [ho, show y + 1 + n = y + (n + 1) by omega]; exact hb) (by simp; omega), ho]

/-- The sample of a pixel after a tile is copied: the tile's inside it, the old one elsewhere (30_encoding.md R94, R96). -/
theorem copyTile_getElem? {w c x tw : Nat} (hx : x + tw ≤ w) {px k : Nat} (hp : px < w) (hk : k < c) (n : Nat) :
    ∀ (y py : Nat) (samples buf : List Byte), (y + n) * w * c ≤ buf.length → samples.length = tw * n * c →
      (copyTile w c x y tw n samples buf)[(py * w + px) * c + k]? =
        if x ≤ px ∧ px < x + tw ∧ y ≤ py ∧ py < y + n then samples[((py - y) * tw + (px - x)) * c + k]?
        else buf[(py * w + px) * c + k]? := by
  induction n with
  | zero => intro y py samples buf _ _; rw [if_neg (by omega)]; rfl
  | succ n ih =>
    intro y py samples buf hb hs
    have hs' : samples.length = tw * c + tw * n * c := by rw [hs]; ring
    have hlen : (samples.take (tw * c)).length = tw * c := by simp; omega
    have hy : (y + 1) * w * c ≤ buf.length :=
      le_trans (Nat.mul_le_mul_right c (Nat.mul_le_mul_right w (by omega))) hb
    have hend : (y * w + x) * c + (samples.take (tw * c)).length ≤ buf.length := by rw [hlen]; exact tile_row_end hx hy
    rw [copyTile, ih _ _ _ _ (by rw [overwriteAt_length hend, show y + 1 + n = y + (n + 1) by omega]; exact hb)
      (by simp; omega), overwriteAt_getElem? hend, hlen]
    have hrange : ((y * w + x) * c ≤ (py * w + px) * c + k ∧ (py * w + px) * c + k < (y * w + x) * c + tw * c) ↔
        py = y ∧ x ≤ px ∧ px < x + tw := by rw [base_range hk, pixel_range hp hx]
    by_cases h1 : x ≤ px ∧ px < x + tw
    · by_cases h2 : py = y
      · subst h2
        rw [if_neg (by omega), if_pos (hrange.mpr ⟨rfl, h1⟩), if_pos (by omega)]
        have he : (py * w + px) * c + k - (py * w + x) * c = (px - x) * c + k := by
          have := Nat.mul_le_mul_right c (show py * w + x ≤ py * w + px by omega)
          have h3 : (py * w + px) * c = (py * w + x) * c + (px - x) * c := by rw [← Nat.add_mul]; congr 1; omega
          omega
        have hlt : (px - x) * c + k < tw * c := by
          have := Nat.mul_le_mul_right c (show px - x + 1 ≤ tw by omega)
          rw [Nat.succ_mul] at this; omega
        rw [he, List.getElem?_take_of_lt hlt]; simp
      · rw [if_neg (c := _ ∧ _) (fun hh => h2 (hrange.mp hh).1)]
        by_cases h3 : y ≤ py ∧ py < y + (n + 1)
        · rw [if_pos (by omega), if_pos (by omega), List.getElem?_drop]
          congr 1
          have : ((py - y) * tw + (px - x)) * c = tw * c + ((py - (y + 1)) * tw + (px - x)) * c := by
            rw [show py - y = py - (y + 1) + 1 by omega]; ring
          omega
        · rw [if_neg (by omega), if_neg (by omega)]
    · rw [if_neg (by omega), if_neg (c := _ ∧ _) (fun hh => h1 (hrange.mp hh).2), if_neg (by omega)]

end Sys2Proof.Machine
end

