-- ==== Sys2Proof/Laws/Step.lean ====
section
/-! SUPPORT. What one command and one step can do, said once. -/

namespace Sys2Proof.Machine

/-- The state after an admitted `ENC` has sought its row's place and the sink has accepted its count of bytes, before the
result stage (41_encode.md R124 to R128). -/
def afterWrite (row : Word32) (payload : List Byte) (s : State) : State :=
  { s with
    rowbuf := rowBuffer s payload
    sink := s.sink.writeBytes (rowAddress s row.toNat) ((diskBytes s payload).take (acceptedCount s.padlen.toNat s))
    sinkPos := rowAddress s row.toNat + acceptedCount s.padlen.toNat s
    sinkAnswers := s.sinkAnswers.tail
    sinkWrites := s.sinkWrites + 1 }

/-- The state after the abort sequence, before its response (60_exceptions.md R161). -/
def aborted (e : ErrorKind) (s : State) : State :=
  sinkRelease { s with faultCode := e.code, poison := true, st := .closed }

/-- Every way a command can end in a next state, with what must hold for it. -/
inductive Effect (s : State) : Instr → State → Prop where
  | notAdmitted (i : Instr) (h : admits s.st i = false) : Effect s i (answer .badState 0 s)
  | badChannels (h : s.st = .unopened) (hc : ¬ LegalChannels s.nchan.toNat) :
      Effect s .bind (answer .unsupportedChannelCount 0 s)
  | tooLarge (h : s.st = .unopened) (hc : LegalChannels s.nchan.toNat)
      (hf : Config.maxFile ≤ projectedSize s.width.toNat s.height.toNat s.nchan.toNat) :
      Effect s .bind (answer .fileTooLarge 0 s)
  | badLength (row : Word32) (payload : List Byte) (h : s.st = .opened) (hr : row.toNat < s.height.toNat)
      (hl : payload.length ≠ sampleCount s) : Effect s (.enc row payload) (answer .illegalCommand 0 s)
  | registerRead (r : Reg) : Effect s (.rd r) (answer .ok (readReg r s) s)
  | releasedBefore (h : s.st = .closed) : Effect s .rel (answer .ok 0 s)
  | widthSet (imm : Word32) (h : s.st = .unopened) : Effect s (.setw imm) (answer .ok 0 { s with width := imm })
  | heightSet (imm : Word32) (h : s.st = .unopened) : Effect s (.seth imm) (answer .ok 0 { s with height := imm })
  | channelsSet (imm : Word32) (h : s.st = .unopened) : Effect s (.setc imm) (answer .ok 0 { s with nchan := imm })
  | bound (h : s.st = .unopened) (hc : LegalChannels s.nchan.toNat)
      (hf : projectedSize s.width.toNat s.height.toNat s.nchan.toNat < Config.maxFile) :
      Effect s .bind (answer .ok 0 (boundState s))
  | rowRejected (row : Word32) (payload : List Byte) (h : s.st = .opened) (hr : s.height.toNat ≤ row.toNat) :
      Effect s (.enc row payload) (answer .rowIndexOutOfRange 0 (aborted .rowIndexOutOfRange s))
  | rowWritten (row : Word32) (payload : List Byte) (h : s.st = .opened) (hr : row.toNat < s.height.toNat)
      (hl : payload.length = sampleCount s) (hn : acceptedCount s.padlen.toNat s = s.padlen.toNat)
      (ha : rowAddress s row.toNat < Config.sinkSize)
      (he : rowAddress s row.toNat + s.padlen.toNat ≤ Config.sinkSize) :
      Effect s (.enc row payload)
        (answer .ok 0 { afterWrite row payload s with rowcnt := rowcntNext s.rowcnt })
  | rowShort (row : Word32) (payload : List Byte) (h : s.st = .opened) (hr : row.toNat < s.height.toNat)
      (hl : payload.length = sampleCount s) (hn : acceptedCount s.padlen.toNat s < s.padlen.toNat)
      (ha : rowAddress s row.toNat < Config.sinkSize)
      (he : rowAddress s row.toNat + acceptedCount s.padlen.toNat s ≤ Config.sinkSize) :
      Effect s (.enc row payload) (answer .shortWrite 0 (aborted .shortWrite (afterWrite row payload s)))
  | released (h : s.st = .opened) : Effect s .rel (answer .ok 0 { sinkRelease s with st := .closed })

/-- The seek and the write of an admitted `ENC`, when they stay inside the sink. -/
theorem writeRow_eq {row : Word32} {payload : List Byte} {s : State} (ha : rowAddress s row.toNat < Config.sinkSize)
    (he : rowAddress s row.toNat + acceptedCount s.padlen.toNat s ≤ Config.sinkSize) :
    writeRow row payload s = finishRow (acceptedCount s.padlen.toNat s) (afterWrite row payload s) := by
  unfold writeRow
  rw [show sinkSeek (rowAddress s row.toNat) { s with rowbuf := rowBuffer s payload } =
    .ok { s with rowbuf := rowBuffer s payload, sinkPos := rowAddress s row.toNat } from sinkSeek_eq_ok.mpr ⟨ha, rfl⟩]
  have hacc : acceptedCount s.padlen.toNat
      { s with rowbuf := rowBuffer s payload, sinkPos := rowAddress s row.toNat } = acceptedCount s.padlen.toNat s := rfl
  dsimp only
  rw [show sinkWrite (diskBytes s payload) { s with rowbuf := rowBuffer s payload, sinkPos := rowAddress s row.toNat } =
    .ok (acceptedCount s.padlen.toNat s, afterWrite row payload s) from by
      rw [sinkWrite_eq_ok, diskBytes_length, hacc]
      exact ⟨he, rfl, rfl⟩]

/-- When they do not, the model stops. -/
theorem writeRow_next {row : Word32} {payload : List Byte} {s t : State} (h : writeRow row payload s = .next t) :
    rowAddress s row.toNat < Config.sinkSize ∧
    rowAddress s row.toNat + acceptedCount s.padlen.toNat s ≤ Config.sinkSize := by
  by_cases ha : rowAddress s row.toNat < Config.sinkSize
  · refine ⟨ha, ?_⟩
    by_contra he
    unfold writeRow at h
    rw [show sinkSeek (rowAddress s row.toNat) { s with rowbuf := rowBuffer s payload } =
      .ok { s with rowbuf := rowBuffer s payload, sinkPos := rowAddress s row.toNat } from sinkSeek_eq_ok.mpr ⟨ha, rfl⟩] at h
    dsimp only at h
    unfold sinkWrite at h
    rw [diskBytes_length, if_neg (by exact he)] at h
    exact absurd h (by simp)
  · unfold writeRow sinkSeek at h
    rw [if_neg ha] at h
    exact absurd h (by simp)

/-- An admitted `ENC` with a valid index and length is its write and its result stage. -/
theorem exec_enc_admitted {row : Word32} {payload : List Byte} {s : State} (hst : s.st = .opened)
    (hr : row.toNat < s.height.toNat) (hl : payload.length = sampleCount s)
    (ha : rowAddress s row.toNat < Config.sinkSize)
    (he : rowAddress s row.toNat + acceptedCount s.padlen.toNat s ≤ Config.sinkSize) :
    exec (.enc row payload) s = finishRow (acceptedCount s.padlen.toNat s) (afterWrite row payload s) := by
  simp only [exec, execEnc]
  rw [if_neg (by simp [hst]), if_neg (by omega), if_neg (by simp [hl]), writeRow_eq ha he]

/-- The invariant speaks of the block's registers, the release count and the sink's bytes only. -/
theorem SessionInv.of_registers {s t : State} (hs : SessionInv s)
    (h : t = { s with
      responses := t.responses, inbox := t.inbox, sinkAnswers := t.sinkAnswers, sinkWrites := t.sinkWrites,
      rowbuf := t.rowbuf, sinkPos := t.sinkPos }) : SessionInv t := by
  rw [h]
  exact ⟨hs.1, hs.2, hs.3, hs.4, hs.5, hs.6, hs.7, hs.8, hs.9⟩

/-- A row of a bound session lies below `2^32` (10_state.md R34 item 4). -/
theorem SessionInv.row_end {s : State} (hs : SessionInv s) (hst : s.st ≠ .unopened) {y : Nat} (hy : y < s.height.toNat) :
    rowAddress s y + s.padlen.toNat < 2 ^ 32 := by
  have h1 := hs.fits hst
  have h2 := diskRow_end s.padlen.toNat hy
  rw [Config.maxFile_eq] at h1
  unfold rowAddress
  omega

/-- What one command can do. -/
theorem exec_effect {i : Instr} {s t : State} (h : exec i s = .next t) : Effect s i t := by
  cases i with
  | setw imm =>
    simp only [exec, execSetw, whenUnopened] at h
    split at h <;> (injection h with h; subst h)
    · exact .widthSet imm ‹_›
    · exact .notAdmitted _ (by simpa [admits] using ‹¬ _›)
  | seth imm =>
    simp only [exec, execSeth, whenUnopened] at h
    split at h <;> (injection h with h; subst h)
    · exact .heightSet imm ‹_›
    · exact .notAdmitted _ (by simpa [admits] using ‹¬ _›)
  | setc imm =>
    simp only [exec, execSetc, whenUnopened] at h
    split at h <;> (injection h with h; subst h)
    · exact .channelsSet imm ‹_›
    · exact .notAdmitted _ (by simpa [admits] using ‹¬ _›)
  | bind =>
    simp only [exec, execBind] at h
    split at h
    · injection h with h; subst h; exact .notAdmitted _ (by simpa [admits] using ‹s.st ≠ _›)
    · rename_i hst
      split at h
      · injection h with h; subst h; exact .badChannels (not_not.mp hst) ‹_›
      · rename_i hc
        split at h <;> (injection h with h; subst h)
        · exact .tooLarge (not_not.mp hst) (not_not.mp hc) ‹_›
        · exact .bound (not_not.mp hst) (not_not.mp hc) (by omega)
  | enc row payload =>
    simp only [exec, execEnc] at h
    split at h
    · injection h with h; subst h; exact .notAdmitted _ (by simpa [admits] using ‹s.st ≠ _›)
    · rename_i hst
      have hst : s.st = .opened := not_not.mp hst
      split at h
      · injection h with h; subst h; exact .rowRejected row payload hst ‹_›
      · rename_i hr
        have hr : row.toNat < s.height.toNat := by omega
        split at h
        · injection h with h; subst h; exact .badLength row payload hst hr ‹_›
        · rename_i hl
          have hl : payload.length = sampleCount s := not_not.mp hl
          obtain ⟨ha, he⟩ := writeRow_next h
          rw [writeRow_eq ha he] at h
          have hle := acceptedCount_le s.padlen.toNat s
          by_cases hn : acceptedCount s.padlen.toNat s = s.padlen.toNat
          · rw [finishRow, if_pos (by exact hn)] at h
            injection h with h; subst h
            exact .rowWritten row payload hst hr hl hn ha (by rw [hn] at he; exact he)
          · rw [finishRow, if_neg (by exact hn)] at h
            injection h with h; subst h
            exact .rowShort row payload hst hr hl (by omega) ha he
  | rel =>
    simp only [exec, execRel] at h
    split at h <;> (injection h with h; subst h)
    · exact .notAdmitted _ (by simp [admits, ‹s.st = _›])
    · exact .released ‹_›
    · exact .releasedBefore ‹_›
  | rd reg =>
    simp only [exec, execRd] at h
    injection h with h; subst h; exact .registerRead reg

/-- A step with no transaction in hand keeps the state (60_exceptions.md R169). -/
theorem step_idle {s : State} (h : s.inbox = []) : step s = .next s := by unfold step; rw [h]

theorem step_legal {s : State} {t : Transaction} {rest : List Transaction} {i : Instr} (h : s.inbox = t :: rest)
    (hd : decode t = .ok i) : step s = exec i { s with inbox := rest } := by
  unfold step; rw [h]; simp only [hd]

theorem step_illegal {s : State} {t : Transaction} {rest : List Transaction} {e : DecodeError} (h : s.inbox = t :: rest)
    (hd : decode t = .error e) : step s = .next (answer .illegalCommand 0 { s with inbox := rest }) := by
  unfold step; rw [h]; simp only [hd]; rfl

/-- What one step can do. -/
theorem step_cases {s t : State} (h : step s = .next t) :
    (s.inbox = [] ∧ t = s) ∨
    (∃ tr rest e, s.inbox = tr :: rest ∧ decode tr = .error e ∧ t = answer .illegalCommand 0 { s with inbox := rest }) ∨
    (∃ tr rest i, s.inbox = tr :: rest ∧ decode tr = .ok i ∧ Effect { s with inbox := rest } i t) := by
  cases hb : s.inbox with
  | nil => rw [step_idle hb] at h; injection h with h; exact .inl ⟨rfl, h.symm⟩
  | cons tr rest =>
    cases hd : decode tr with
    | error e =>
      rw [step_illegal hb hd] at h
      injection h with h
      exact .inr (.inl ⟨tr, rest, e, rfl, hd, h.symm⟩)
    | ok i =>
      rw [step_legal hb hd] at h
      exact .inr (.inr ⟨tr, rest, i, rfl, hd, exec_effect h⟩)

end Sys2Proof.Machine
end

