-- ==== Sys2Proof/Machine/Assembly.lean ====
section
/-! DEFINITION. Assembly: the notation of 30_encoding.md R89 for commands, words and responses, printed (log 15). -/

namespace Sys2Proof.Machine

/-- The name of a register in the notation. -/
def regName (r : Reg) : String :=
  match r with
  | .width => "WIDTH"
  | .height => "HEIGHT"
  | .nchan => "NCHAN"
  | .pixoff => "PIXOFF"
  | .padlen => "PADLEN"
  | .status => "STATUS"
  | .fault => "FAULT"
  | .rowcnt => "ROWCNT"

/-- One hexadecimal digit. -/
def hexDigit (n : Nat) : String :=
  match n with
  | 0 => "0" | 1 => "1" | 2 => "2" | 3 => "3" | 4 => "4" | 5 => "5" | 6 => "6" | 7 => "7"
  | 8 => "8" | 9 => "9" | 10 => "A" | 11 => "B" | 12 => "C" | 13 => "D" | 14 => "E" | _ => "F"

/-- The `n` low hexadecimal digits of a number, most significant first. -/
def hexDigits (n v : Nat) : String :=
  match n with
  | 0 => ""
  | n + 1 => hexDigits n (v / 16) ++ hexDigit (v % 16)

/-- A payload list: bytes of two digits, in address order. -/
def hexBytes (bs : List Byte) : String :=
  match bs with
  | [] => ""
  | b :: rest =>
    match rest with
    | [] => hexDigits 2 b.toNat
    | _ :: _ => hexDigits 2 b.toNat ++ " " ++ hexBytes rest

/-- A command in the notation. -/
def asmOf (i : Instr) : String :=
  match i with
  | .setw imm => "SETW " ++ toString imm.toNat
  | .seth imm => "SETH " ++ toString imm.toNat
  | .setc imm => "SETC " ++ toString imm.toNat
  | .bind => "BIND"
  | .enc row payload => "ENC " ++ toString row.toNat ++ ", [" ++ hexBytes payload ++ "]"
  | .rel => "REL"
  | .rd r => "RD " ++ regName r

/-- An encoded command: 16 hexadecimal digits, then the payload bytes if any. -/
def encodedText (i : Instr) : String :=
  hexDigits 16 (encode i).word.toNat ++ (if i.payload = [] then "" else " " ++ hexBytes i.payload)

/-- The name of an error kind. -/
def errorName (e : ErrorKind) : String :=
  match e with
  | .ok => "OK"
  | .unsupportedMode => "UnsupportedMode"
  | .unsupportedChannelCount => "UnsupportedChannelCount"
  | .fileTooLarge => "FileTooLarge"
  | .sinkUnavailable => "SinkUnavailable"
  | .rowIndexOutOfRange => "RowIndexOutOfRange"
  | .shortWrite => "ShortWrite"
  | .badState => "BadState"
  | .illegalCommand => "IllegalCommand"

/-- The answer to a command in the notation: `RD` shows its value. -/
def responseText (i : Instr) (r : Word64) : String :=
  match errorOfCode (errOf r).toNat with
  | some .ok =>
    match i with
    | .rd _ => "-> OK val=" ++ toString (valOf r).toNat
    | _ => "-> OK"
  | some e => "-> " ++ errorName e
  | none => "-> ?"

end Sys2Proof.Machine
end

