-- ==== Sys2Proof/Tests/Slice0.lean ====
section
/-! SUPPORT. Small tests whose expected results are the spec's (95_test_vectors.md), the well-formedness smoke, and one witness
for the hypotheses of each statement. -/

namespace Sys2Proof.Tests

open Sys2Proof Sys2Proof.Machine

/-! ## Well-formedness smoke: one ill-formed term for each check -/

theorem test_setw_ill_formed : (Instr.setw 0x80000000).wellFormed = false := by decide
theorem test_seth_ill_formed : (Instr.seth 0xFFFFFFFF).wellFormed = false := by decide
theorem test_setw_well_formed : (Instr.setw 0x7FFFFFFF).wellFormed = true := by decide
theorem test_seth_well_formed : (Instr.seth 0x7FFFFFFF).wellFormed = true := by decide

/-! ## Decoding: words written out from 30_encoding.md R81, R83 (95_test_vectors.md section 2.1) -/

theorem test_decode_setw : decode ⟨0x0100000000000002, []⟩ = .ok (.setw 2) := rfl
theorem test_decode_seth : decode ⟨0x020000007FFFFFFF, []⟩ = .ok (.seth 0x7FFFFFFF) := rfl
theorem test_decode_setc : decode ⟨0x03000000FFFFFFFF, []⟩ = .ok (.setc 0xFFFFFFFF) := rfl
theorem test_decode_bind : decode ⟨0x0400000000000000, []⟩ = .ok .bind := rfl
theorem test_decode_enc : decode ⟨0x0500000000000001, [0x01, 0x02, 0x03]⟩ = .ok (.enc 1 [0x01, 0x02, 0x03]) := rfl
theorem test_decode_rel : decode ⟨0x0600000000000000, []⟩ = .ok .rel := rfl
theorem test_decode_rd : decode ⟨0x0700000000000004, []⟩ = .ok (.rd .padlen) := rfl
theorem test_decode_bytes : decodeFrame [0x02, 0, 0, 0, 0, 0, 0, 0x01] = .ok (.setw 2) := rfl
theorem test_decode_short_frame : decodeFrame [0x02, 0, 0, 0, 0, 0, 0] = .error .frameTooShort := rfl
theorem test_table_word_enc : decodeTableWord 64 0x0500000000000000 = some (.enc 0 []) := rfl
theorem test_response_bytes : leBytes 8 0x0600000000000000 = [0, 0, 0, 0, 0, 0, 0, 0x06] := rfl

/-! ## Small states -/

/-- Reset with one transaction in hand. -/
def fresh (word : Word64) (payload : List Byte) : State := { State.reset with inbox := [⟨word, payload⟩] }

/-- The bound geometry of 95_test_vectors.md section 2.5, `2 x 1` RGB, and the sink's answers. -/
def bound21 (answers : List Nat) : State :=
  { State.reset with
    width := 2, height := 1, nchan := 3, pixoff := 54, padlen := 8, st := .opened, sinkAnswers := answers }

/-- The bound geometry of program P1, `2 x 2` RGB. -/
def bound22 (answers : List Nat) : State := { bound21 answers with height := 2 }

/-- A bound image of no columns (program P6). -/
def boundEmpty : State := { bound22 [] with width := 0, padlen := 0 }

/-- Closed by an abort (`STATUS = 6`). -/
def poisoned : State := { bound21 [] with st := .closed, poison := true, faultCode := 6, releases := 1 }

/-- A legal geometry staged, not yet bound (scenario S1). -/
def staged : State := { State.reset with width := 2, height := 2, nchan := 3 }

/-- The state a command leaves, the given one if it stops. -/
def after (o : Host.Outcome State Fault Refusal) (s : State) : State :=
  match o with
  | .next t => t
  | .fault _ => s
  | .refused _ => s

/-! ## One step each -/

theorem test_setw : (after (step (fresh 0x0100000000000002 [])) poisoned).width = 2 := rfl
theorem test_seth : (after (step (fresh 0x0200000000000002 [])) poisoned).height = 2 := rfl
theorem test_setc : (after (step (fresh 0x0300000000000003 [])) poisoned).nchan = 3 := rfl
theorem test_bind :
    (fun t : State => (t.pixoff, t.padlen, t.st)) (after (exec .bind staged) poisoned) = (54, 8, .opened) := rfl
theorem test_bind_product_is_exact :
    (after (exec .bind { staged with width := 32768, height := 32768, nchan := 4 }) poisoned).responses =
      [0x0300000000000000] := by decide
/-- Program P1, second `ENC`: the bottom row lands first in the file. -/
theorem test_enc_row_bytes :
    (after (exec (.enc 1 [0x11, 0x12, 0x13, 0x14, 0x15, 0x16]) (bound22 [8])) poisoned).sink =
      [(54, 0x13), (55, 0x12), (56, 0x11), (57, 0x16), (58, 0x15), (59, 0x14), (60, 0), (61, 0)] := rfl
/-- 95_test_vectors.md section 2.5: a sink that accepts 5 bytes. -/
theorem test_enc_short_write :
    (fun t : State => (t.faultCode, t.sinkPos, t.sink.length, t.releases, t.st))
      (after (exec (.enc 0 [1, 2, 3, 4, 5, 6]) (bound21 [5])) poisoned) = (6, 59, 5, 1, .closed) := rfl
theorem test_rel_after_abort : exec .rel poisoned = .next { poisoned with responses := [0] } := rfl
theorem test_rd_status_after_abort : (after (exec (.rd .status) poisoned) poisoned).responses = [6] := rfl
theorem test_illegal_is_answered :
    step (fresh 0x0500000100000000 []) = .next { State.reset with responses := [0x0800000000000000] } := rfl
theorem test_fetch_word : step (State.reset.withFetchWord 64 0x0300000000000005) = exec (.setc 5) State.reset := rfl
/-- 95_test_vectors.md E1: the header bytes of the `2 x 2` RGB image, and E2's header length. -/
theorem test_header_bytes : headerRegion 2 2 3 Resolution.absent =
    [0x42, 0x4D, 0x46, 0, 0, 0, 0, 0, 0, 0, 0x36, 0, 0, 0,
     0x28, 0, 0, 0, 2, 0, 0, 0, 2, 0, 0, 0, 1, 0, 0x18, 0, 0, 0, 0, 0,
     4, 0, 0, 0, 0, 0, 0, 0, 0, 0, 0, 0, 0, 0, 0, 0, 0, 0, 0, 0] := by decide
theorem test_asm : encodedText (.setw 2) = "0100000000000002" := by decide

/-! ## Witnesses: states and operands that meet the hypotheses of each statement -/

theorem reset_inv : SessionInv State.reset := by
  refine ⟨?_, ?_, ?_, ?_, ?_, ?_, ?_, ?_, ?_⟩ <;> decide

theorem bound21_inv (answers : List Nat) : SessionInv (bound21 answers) := by
  refine ⟨?_, ?_, ?_, ?_, ?_, ?_, ?_, ?_, ?_⟩ <;> (dsimp only [bound21, State.reset]; decide)

theorem bound22_inv (answers : List Nat) : SessionInv (bound22 answers) := by
  refine ⟨?_, ?_, ?_, ?_, ?_, ?_, ?_, ?_, ?_⟩ <;> (dsimp only [bound22, bound21, State.reset]; decide)

theorem boundEmpty_inv : SessionInv boundEmpty := by
  refine ⟨?_, ?_, ?_, ?_, ?_, ?_, ?_, ?_, ?_⟩ <;> decide

theorem poisoned_inv : SessionInv poisoned := by
  refine ⟨?_, ?_, ?_, ?_, ?_, ?_, ?_, ?_, ?_⟩ <;> decide

theorem staged_inv : SessionInv staged := by
  refine ⟨?_, ?_, ?_, ?_, ?_, ?_, ?_, ?_, ?_⟩ <;> decide

/-- DecodeOfEncodeIsTheCommand, at the largest width. -/
theorem witness_well_formed : (Instr.setw 0x7FFFFFFF).WellFormed ∧ (Instr.seth 0).WellFormed := by decide

/-- EncodeOfDecodedIsTheTransaction. -/
theorem witness_decoded : decode ⟨0x0700000000000007, []⟩ = .ok (.rd .rowcnt) := rfl

/-- OpcodeTableSpellsTheCommands: a word of a row at the end of its range, with and without payload, and a word of none. -/
theorem witness_table :
    (∃ r ∈ opcodeTable, r.spells 0x010000007FFFFFFF = true ∧ r.takesPayload = false) ∧
    (∃ r ∈ opcodeTable, r.spells 0x05000000FFFFFFFF = true ∧ r.takesPayload = true) ∧
    (∀ r ∈ opcodeTable, r.spells 0x0700000000000008 = false) := by decide

/-- IllegalTransactionsAreTheSixCases: a transaction of each case at the edge of its range, and a legal one. -/
theorem witness_illegal :
    Illegal ⟨0x0800000000000000, []⟩ ∧ Illegal ⟨0, []⟩ ∧ Illegal ⟨0x0100000100000002, []⟩ ∧
    Illegal ⟨0x0400000000000001, []⟩ ∧ Illegal ⟨0x0100000080000000, []⟩ ∧ Illegal ⟨0x0700000000000008, []⟩ ∧
    Illegal ⟨0x0100000000000002, [0]⟩ ∧ ¬ Illegal ⟨0x0700000000000007, []⟩ ∧
    (fresh 0x0800000000000000 []).inbox = [⟨0x0800000000000000, []⟩] := by
  refine ⟨.inl (.inr (by decide)), .inl (.inl (by decide)), .inr (.inl (by decide)), .inr (.inr (.inl (by decide))),
    .inr (.inr (.inr (.inl (by decide)))), .inr (.inr (.inr (.inr (.inl (by decide))))),
    .inr (.inr (.inr (.inr (.inr ⟨by decide, by decide⟩)))), ?_, rfl⟩
  rintro (h | h | h | h | h | h)
  · revert h; decide
  · revert h; decide
  · revert h; decide
  · revert h; decide
  · revert h; decide
  · exact h.2 rfl

/-- CommandWordFieldsAndByteOrder: a reserved field that is not zero. -/
theorem witness_reserved : (1 : BitVec 24) ≠ 0 := by decide

/-- EveryTransactionGetsOneResponse: a read and another command in hand, with their next states. -/
theorem witness_response :
    (∃ t, step (fresh 0x0700000000000005 []) = .next t) ∧ decode ⟨0x0700000000000005, []⟩ = .ok (.rd .status) ∧
    (∃ t, step (fresh 0x0400000000000000 []) = .next t) ∧ (∀ reg, decode ⟨0x0400000000000000, []⟩ ≠ .ok (.rd reg)) :=
  ⟨⟨_, rfl⟩, rfl, ⟨_, rfl⟩, fun _ h => by cases h⟩

/-- SetwSetsTheWidth, SethSetsTheHeight, SetcStagesTheChannelCount, BindFixesTheGeometry, RelReleasesTheSinkOnce,
RdAnswersWithTheRegister: a state and a word for each clause. -/
theorem witness_admission :
    State.reset.st = .unopened ∧ (bound21 []).st ≠ .unopened ∧ (bound21 []).st = .opened ∧ poisoned.st = .closed ∧
    opOf 0x010000007FFFFFFF = 0x01 ∧ opOf 0x020000007FFFFFFF = 0x02 ∧ opOf 0x03000000FFFFFFFF = 0x03 ∧
    opOf 0x0400000000000000 = 0x04 ∧ opOf 0x0600000000000000 = 0x06 ∧ opOf 0x0700000000000007 = 0x07 ∧
    (State.reset.nchan.toNat ≠ 1 ∧ State.reset.nchan.toNat ≠ 3 ∧ State.reset.nchan.toNat ≠ 4) ∧
    ({ bound21 [] with height := 0 } : State).height = 0 := by decide

/-- The same statements: an illegal word for each clause of each opcode, and a payload where none may be. -/
theorem witness_illegal_words :
    (fresh 0x0100000100000002 []).inbox = ⟨0x0100000100000002, []⟩ :: [] ∧ rsvOf 0x0100000100000002 ≠ 0 ∧
    (immOf 0x0100000080000000).getLsbD 31 = true ∧ (immOf 0x020000007FFFFFFF).getLsbD 31 = false ∧
    rsvOf 0x0300000100000003 ≠ 0 ∧ immOf 0x0400000000000001 ≠ 0 ∧ immOf 0x0600000000000000 = 0 ∧
    8 ≤ (immOf 0x0700000000000008).toNat ∧ (immOf 0x0700000000000007).toNat < 8 ∧ ([0] : List Byte) ≠ [] := by decide

/-- BindFixesTheGeometry, BindAcceptsExactlyTheSmallFiles, ChecksAreMadeInOrder: the largest file that binds and the next
geometry, which does not (95_test_vectors.md section 2.2). -/
theorem witness_bind :
    staged.st = .unopened ∧ LegalChannels staged.nchan.toNat ∧
    projectedSize 1073741810 1 4 < 2 ^ 32 ∧ 2 ^ 32 ≤ projectedSize 1073741811 1 4 ∧
    (1073741810 * 4 + 3) / 4 * 4 * 1 + 54 < 2 ^ 32 ∧ 2 ^ 32 ≤ (1073741811 * 4 + 3) / 4 * 4 * 1 + 54 ∧
    ¬ LegalChannels State.reset.nchan.toNat := by decide

/-- PadLengthIsTheLeastMultipleOfFour, GeometryBounds: a multiple above, and a geometry at the limits. -/
theorem witness_geometry :
    (8 % 4 = 0 ∧ 2 * 3 ≤ 8 ∧ 4 * 3 % 4 = 0) ∧ (2147483647 < 2 ^ 31 ∧ LegalChannels 1) ∧
    (projectedSize 2147483647 1 1 < 2 ^ 32 ∧ 1 ≤ 1 ∧ 0 < 1 ∧ 2147483647 < padLength 2147483647 1) := by decide

/-- GeometryIsFixedAfterBind, ClosedIsTerminal, NoWritesAfterTheSessionEnds, EveryStepKeepsTheSessionInvariant,
TheBlockWritesOnlyThePixelRegion: steps from a bound and from a closed session. -/
theorem witness_step :
    (∃ t, step { bound21 [8] with inbox := [encode (.enc 0 [1, 2, 3, 4, 5, 6])] } = .next t) ∧
    (∃ t, step { poisoned with inbox := [encode (.enc 0 [])] } = .next t) ∧ poisoned.st = .closed ∧
    (∃ t, runSteps 2 { poisoned with inbox := [encode (.enc 0 []), encode .rel] } = .next t) ∧
    SessionInv { bound21 [8] with inbox := [encode (.enc 0 [1, 2, 3, 4, 5, 6])] } ∧
    (53 < (bound21 [8]).pixoff.toNat ∧ (bound21 [8]).pixoff.toNat + (bound21 [8]).padlen.toNat * (bound21 [8]).height.toNat ≤ 62) :=
  ⟨⟨_, rfl⟩, ⟨_, rfl⟩, rfl, ⟨_, rfl⟩, (bound21_inv [8]).of_registers rfl, by decide⟩

/-- PermissionMatrixDecidesAdmission, ChecksAreMadeInOrder: a command refused and one admitted, with its next state. -/
theorem witness_permission :
    admits (bound21 []).st (.setw 9) = false ∧ admits (bound21 []).st .rel = true ∧
    (∃ t, exec .rel (bound21 []) = .next t) ∧ decode (encode (.setw 9)) = .ok (.setw 9) ∧
    decode (encode .rel) = .ok .rel ∧ decode (encode .bind) = .ok .bind :=
  ⟨rfl, rfl, ⟨_, rfl⟩, rfl, rfl, rfl⟩

/-- SessionStateMachine: a step of each transition. -/
theorem witness_transitions :
    (∃ t, step { staged with inbox := [encode .bind] } = .next t ∧ t.st = .opened) ∧
    (∃ t, step { bound21 [] with inbox := [encode .rel] } = .next t ∧ t.st = .closed) ∧
    (∃ t, step { bound21 [] with inbox := [encode (.enc 1 [])] } = .next t ∧ t.faultCode = 5) ∧
    (∃ t, step { bound21 [7] with inbox := [encode (.enc 0 [1, 2, 3, 4, 5, 6])] } = .next t ∧ t.faultCode = 6) :=
  ⟨⟨_, rfl, rfl⟩, ⟨_, rfl, rfl⟩, ⟨_, rfl, rfl⟩, ⟨_, rfl, rfl⟩⟩

/-- RowIndexOutOfRangeAborts, WrongPayloadLengthChangesNothing: the row index at its boundary on both sides, and a payload of
the wrong length. -/
theorem witness_row_index :
    (bound21 []).st = .opened ∧ (bound21 []).height.toNat ≤ (1 : Word32).toNat ∧
    (0 : Word32).toNat < (bound21 []).height.toNat ∧
    ([1, 2, 3] : List Byte).length ≠ (bound21 []).width.toNat * (bound21 []).nchan.toNat ∧
    ∃ t, exec (.enc 0 [1, 2, 3]) (bound21 []) = .next t :=
  ⟨rfl, by decide, by decide, by decide, _, rfl⟩

/-- OnlyAnAbortWritesFaultAndPoison, NonAbortingErrorsHaveNoEffect: a step that changes `FAULT`, and one that answers with an
error that does not abort. -/
theorem witness_errors :
    (∃ t, step { bound21 [] with inbox := [encode (.enc 1 [])] } = .next t ∧ t.faultCode ≠ (bound21 []).faultCode) ∧
    (∃ t, step { bound21 [] with inbox := [encode .bind] } = .next t ∧
      t.responses = (bound21 []).responses ++ [0x0700000000000000] ∧ (errOf 0x0700000000000000).toNat ∈ [2, 3, 7, 8]) :=
  ⟨⟨_, rfl, by decide⟩, ⟨_, rfl, rfl, by decide⟩⟩

/-- ReorderIsTheChannelPermutation, PaddingAppendsZeros: rows of each channel count, at the last pixel and channel. -/
theorem witness_rows :
    LegalChannels 1 ∧ LegalChannels 3 ∧ LegalChannels 4 ∧ ([1, 2, 3, 4, 5, 6] : List Byte).length = 2 * 3 ∧
    (1 < 2 ∧ 2 < 3) ∧ (2 * 3 ≤ 6 ∧ 7 < padLength 2 3) ∧ ([1, 2, 3, 4] : List Byte).length = 1 * 4 ∧ 1 * 4 % 4 = 0 := by decide

/-- RowMappingIsTheBottomUpInversion, EncWithAFullWriteCompletes, SuccessfulEncInClosedForm,
EncResultFollowsTheAcceptedCount: the last row of a bound image, a full payload and a full answer; a short answer too. -/
theorem witness_enc :
    SessionInv (bound22 [8]) ∧ (bound22 [8]).st = .opened ∧ (1 : Word32).toNat < (bound22 [8]).height.toNat ∧
    ([1, 2, 3, 4, 5, 6] : List Byte).length = (bound22 [8]).width.toNat * (bound22 [8]).nchan.toNat ∧
    rowAddress (bound22 [8]) 1 < 2 ^ 32 ∧ rowAddress (bound22 [8]) 1 + (bound22 [8]).padlen.toNat ≤ 2 ^ 32 ∧
    FullWrite (bound22 [8]).padlen.toNat (bound22 [8]) ∧
    min (sinkOffer (bound22 [7])) (bound22 [7]).padlen.toNat < (bound22 [7]).padlen.toNat :=
  ⟨bound22_inv [8], rfl, by decide, by decide, by decide, by decide, by unfold FullWrite; decide, by decide⟩

/-- ZeroWidthRowAlwaysSucceeds, with no answer listed. -/
theorem witness_zero_width :
    SessionInv boundEmpty ∧ boundEmpty.st = .opened ∧ boundEmpty.width = 0 ∧ (1 : Word32).toNat < boundEmpty.height.toNat :=
  ⟨boundEmpty_inv, rfl, rfl, by decide⟩

/-- RepeatedEncLeavesTheSameBytes: two executions with full answers. -/
theorem witness_repeat :
    ∃ t u, SessionInv (bound22 [8, 8]) ∧ exec (.enc 1 [1, 2, 3, 4, 5, 6]) (bound22 [8, 8]) = .next t ∧
      t.responses = (bound22 [8, 8]).responses ++ [0] ∧ FullWrite 8 (bound22 [8, 8]) ∧ FullWrite t.padlen.toNat t ∧
      exec (.enc 1 [1, 2, 3, 4, 5, 6]) t = .next u :=
  ⟨_, _, bound22_inv _, rfl, rfl, by unfold FullWrite; decide, by unfold FullWrite; decide, rfl⟩

/-- SinkPrimitives: the last sink address, a write that ends at the sink's end, and an empty one. -/
theorem witness_sink :
    4294967295 < 2 ^ 32 ∧ Memory.wf State.reset.sink ∧ 4294967292 + ([1, 2, 3, 4] : List Byte).length ≤ 2 ^ 32 ∧
    ([] : List Byte).length = 0 := by decide

/-- The bound `2 x 1` session with a full row in hand, on a sink and a position of its own. -/
def rowInHand (sink : Memory) (sinkPos : Nat) : State :=
  { bound21 [8] with sink := sink, sinkPos := sinkPos, inbox := [encode (.enc 0 [1, 2, 3, 4, 5, 6])] }

/-- NoBehaviourDependsOnTheSink: two states that differ in sink bytes inside and outside the row and in the position, and their
steps: the byte outside is left by both, the one inside and the position are the same after both. -/
theorem witness_off_sink :
    AgreeOffSink (rowInHand [] 0) (rowInHand [(3, 1), (61, 9)] 4) ∧
    ∃ s' t', step (rowInHand [] 0) = .next s' ∧ step (rowInHand [(3, 1), (61, 9)] 4) = .next t' ∧
      s'.sink.read 3 = none ∧ t'.sink.read 3 = some 1 ∧ s'.sink.read 61 = some 0 ∧ t'.sink.read 61 = some 0 ∧
      s'.sinkPos = 62 ∧ t'.sinkPos = 62 := ⟨rfl, _, _, rfl, rfl, rfl, rfl, rfl, rfl, rfl, rfl⟩

/-- EncFrame, OtherCommandsFrame: commands with a next state. -/
theorem witness_frames :
    Memory.wf (bound21 [8]).sink ∧ (∃ t, exec (.enc 0 [1, 2, 3, 4, 5, 6]) (bound21 [8]) = .next t) ∧
    (∃ t, exec (.enc 1 []) (bound21 [8]) = .next t) ∧ (∀ row p, Instr.bind ≠ .enc row p) ∧
    (∃ t, exec .bind staged = .next t) :=
  ⟨by decide, ⟨_, rfl⟩, ⟨_, rfl⟩, fun _ _ h => (by cases h), ⟨_, rfl⟩⟩

/-- RowcntCountsSuccessfulRows: a successful `BIND`, a successful `ENC`, a refused command. -/
theorem witness_rowcnt :
    (∃ t, step { staged with inbox := [encode .bind] } = .next t ∧ t.responses = staged.responses ++ [0]) ∧
    (∃ t, step { bound21 [8] with inbox := [encode (.enc 0 [1, 2, 3, 4, 5, 6])] } = .next t ∧
      t.responses = (bound21 [8]).responses ++ [0]) ∧
    (∃ t, step { bound21 [8] with inbox := [encode .bind] } = .next t ∧ t.responses ≠ (bound21 [8]).responses ++ [0]) ∧
    (decode (encode .rel) ≠ .ok .bind ∧ ∀ row p, decode (encode .rel) ≠ .ok (.enc row p)) :=
  ⟨⟨_, rfl, rfl⟩, ⟨_, rfl, rfl⟩, ⟨_, rfl, by decide⟩, fun h => (by cases h), fun _ _ h => (by cases h)⟩

/-- StepRunsTheDecodedCommand, IdleBlockKeepsItsState. -/
theorem witness_step_decodes :
    (fresh 0x0600000000000000 []).inbox = ⟨0x0600000000000000, []⟩ :: [] ∧
    decode ⟨0x0600000000000000, []⟩ = .ok .rel ∧ decodeTableWord 64 0x0100000000000002 = some (.setw 2) ∧
    State.reset.inbox = [] := ⟨rfl, rfl, rfl, rfl⟩

/-- ResetMeetsTheSessionInvariant, NoStepStopsUnderTheInvariant, RunsFromResetMeetTheInvariants. -/
theorem witness_runs : StartsRun { State.reset with inbox := [encode .bind], sinkAnswers := [3] } ∧ Memory.wf State.reset.sink ∧
    SessionInv (bound21 []) := ⟨rfl, by decide, bound21_inv []⟩

/-- HeaderBytesHoldTheGeometry: a geometry of each header length, at the width limit; a palette entry at the last index. -/
theorem witness_headers :
    (LegalChannels 1 ∧ 2147483647 < 2 ^ 31 ∧ 1 < 2 ^ 31 ∧ projectedSize 2147483647 1 1 < 2 ^ 32 ∧ 255 < 256) ∧
    (LegalChannels 3 ∧ projectedSize 2 2 3 < 2 ^ 32) := by decide

/-- The rows of program P1, bottom row first and top row first. -/
def rowsUp : List (Word32 × List Byte) := [(1, [0x11, 0x12, 0x13, 0x14, 0x15, 0x16]), (0, [1, 2, 3, 4, 5, 6])]
def rowsDown : List (Word32 × List Byte) := [(0, [1, 2, 3, 4, 5, 6]), (1, [0x11, 0x12, 0x13, 0x14, 0x15, 0x16])]

/-- The `2 x 2` session with its headers written. -/
def headed : State := { bound22 [8, 8] with sink := cellsFrom 0 (sessionHeaders (bound22 []) Resolution.absent) }

/-- RowOrderDoesNotMatter, RowcntTellsACompleteImage: two orders that both succeed and last sent the same rows. -/
theorem witness_row_order :
    (∃ t, runCommands (encCommands rowsUp) (bound22 [8, 8]) = .next t ∧ sessionResult (bound22 [8, 8]) t = .success) ∧
    (∃ t, runCommands (encCommands rowsDown) (bound22 [8, 8]) = .next t ∧ sessionResult (bound22 [8, 8]) t = .success) ∧
    (∀ y, y < (bound22 [8, 8]).height.toNat → lastSent rowsUp y ≠ none ∧ lastSent rowsDown y = lastSent rowsUp y) ∧
    (bound22 [8, 8]).rowcnt = 0 ∧ (rowsUp.map fun r => r.1.toNat).Nodup :=
  ⟨⟨_, rfl, rfl⟩, ⟨_, rfl, rfl⟩, by decide, rfl, by decide⟩

/-- EveryRowWrittenGivesTheCompleteFile: the headers in the sink, every row sent, every write full. -/
theorem witness_complete_file :
    headed.st = .opened ∧ SessionInv headed ∧
    (∀ b, headed.sink.read b = (sessionHeaders headed Resolution.absent)[b]?) ∧
    (∀ y, y < headed.height.toNat →
      lastSent rowsUp y = ([[1, 2, 3, 4, 5, 6], [0x11, 0x12, 0x13, 0x14, 0x15, 0x16]] : List (List Byte))[y]?) ∧
    (∃ t, runCommands (encCommands rowsUp) headed = .next t ∧ sessionResult headed t = .success) := by
  refine ⟨rfl, ?_, ?_, by decide, ⟨_, rfl, by rfl⟩⟩
  · refine ⟨?_, ?_, ?_, ?_, ?_, ?_, ?_, ?_, ?_⟩ <;> decide
  · intro b
    by_cases h : b < 54
    · exact (show ∀ b < 54, headed.sink.read b = (sessionHeaders headed Resolution.absent)[b]? by decide) b h
    · rw [Memory.read_past_fileLength _ _ (show Memory.fileLength headed.sink ≤ b by
        have : Memory.fileLength headed.sink = 54 := by decide +kernel
        omega), List.getElem?_eq_none (show (sessionHeaders headed Resolution.absent).length ≤ b by
        have : (sessionHeaders headed Resolution.absent).length = 54 := by decide +kernel
        omega)]

/-- ConfigOpensTheSession, OpenSessionChecksThenConfigures: descriptions that open and that fail each check. -/
theorem witness_open :
    State.reset.st = .unopened ∧ (2 : Word32).toNat < 2 ^ 31 ∧ LegalChannels (3 : Word32).toNat ∧
    projectedSize 2 2 3 < 2 ^ 32 ∧ ¬ LegalChannels (2 : Word32).toNat ∧ 2 ^ 32 ≤ projectedSize 65536 65536 1 ∧
    openChecks ⟨2, 2, 3, false, false, Resolution.absent⟩ true = .success ∧
    openChecks ⟨2, 2, 2, false, true, Resolution.absent⟩ true ≠ .success ∧
    openChecks ⟨2, 2, 3, true, false, Resolution.absent⟩ true = .failed .unsupportedMode ∧
    State.reset.sinkPos + pixelOffset 3 ≤ 2 ^ 32 ∧ State.reset.sinkPos = 0 ∧ poisoned.st ≠ .unopened := by decide

/-- A tiled session of the `2 x 1` image, its buffer filled. -/
def tiled21 (answers : List Nat) : HostSession :=
  { block := bound21 answers, tiled := true, tileBuffer := [1, 2, 3, 4, 5, 6] }

/-- CloseAlwaysReleasesTheSink: a tiled close whose replay is cut short, an untiled one with a row missing, a closed and an
unopened session. -/
theorem witness_close :
    SessionInv (tiled21 [5]).block ∧ (tiled21 [5]).block.st = .opened ∧ poisoned.st = .closed ∧
    State.reset.st = .unopened ∧
    (∃ g, closeSession .error (tiled21 [5]) = .next (g, .failed .shortWrite) ∧ g.block.faultCode = 6) ∧
    (∃ g, closeSession .error { tiled21 [] with tiled := false } = .next (g, .underwritten)) ∧
    (∃ g, closeSession .ignore { tiled21 [] with tiled := false } = .next (g, .success)) :=
  ⟨bound21_inv [5], rfl, rfl, rfl, ⟨_, rfl, rfl⟩, ⟨_, rfl⟩, ⟨_, rfl⟩⟩

/-- 30_encoding.md R95: a close of a closed session is a no-op success, tiled or not, with rows missing or not. -/
theorem test_close_again :
    closeSession .error { block := { poisoned with faultCode := 0, poison := false }, tiled := true, tileBuffer := [] } =
      .next ({
        block := { poisoned with faultCode := 0, poison := false, responses := [0] }, tiled := true, tileBuffer := [] },
        .success) := rfl

/-- 70_reset_and_hazards.md R190: the paths are not mixed. -/
theorem test_mixed_paths :
    writeScanline 0 [1, 2, 3, 4, 5, 6] (tiled21 [8]) = .fault .mixedPaths ∧
    writeTile 0 0 0 1 1 [1, 2, 3] { tiled21 [] with tiled := false } = .fault .mixedPaths := ⟨rfl, rfl⟩

/-- A `1 x 2` tile at column 1 of a `2 x 2` image of one channel (30_encoding.md R94, R96). -/
theorem test_copy_tile : copyTile 2 1 1 0 1 2 [7, 8] [1, 2, 3, 4] = [1, 7, 3, 8] := rfl

/-- 70_reset_and_hazards.md R186: the headers go where the position is. -/
theorem test_headers_at_position :
    (match writeHeaders 2 2 3 Resolution.absent { State.reset with sinkPos := 70 } with
      | .ok t => (t.sink.read 0, t.sink.read 70, t.sinkPos)
      | .error _ => (none, none, 0)) = (none, some 0x42, 124) := by decide +kernel

/-- SinkPositionIsShared: a top row and another one, each successful, of rows that hold bytes. -/
theorem witness_position :
    SessionInv (bound22 [8]) ∧ 0 < (bound22 [8]).padlen.toNat ∧
    (∃ t, exec (.enc 0 [1, 2, 3, 4, 5, 6]) (bound22 [8]) = .next t ∧ t.responses = (bound22 [8]).responses ++ [0] ∧
      t.sinkPos = fileSize (bound22 [8])) ∧
    (∃ t, exec (.enc 1 [1, 2, 3, 4, 5, 6]) (bound22 [8]) = .next t ∧ t.responses = (bound22 [8]).responses ++ [0]) ∧
    Memory.wf (bound22 [8]).sink ∧ (bound22 [8]).sinkPos + pixelOffset 1 ≤ 2 ^ 32 :=
  ⟨bound22_inv _, by decide, ⟨_, rfl, rfl, rfl⟩, ⟨_, rfl, rfl⟩, by decide, by decide⟩

/-- PathsAreNotMixed, TileSamplesGoToTheirPixels: sessions of each kind, a tile at the image's edge and one across it. -/
theorem witness_tiles :
    (tiled21 []).tiled = true ∧ (tiled21 []).block.st = .opened ∧ SessionInv (bound21 [8]) ∧ poisoned.st ≠ .opened ∧
    (1 + 1 ≤ (tiled21 []).block.width.toNat ∧ 0 + 1 ≤ (tiled21 []).block.height.toNat) ∧
    (tiled21 []).block.width.toNat < 1 + 2 ∧ ([7, 8, 9] : List Byte).length = 1 * 1 * (tiled21 []).block.nchan.toNat ∧
    (tiled21 []).tileBuffer.length =
      (tiled21 []).block.width.toNat * (tiled21 []).block.height.toNat * (tiled21 []).block.nchan.toNat ∧
    (∃ g, writeTile 1 0 0 1 1 [7, 8, 9] (tiled21 []) = .next (g, .success) ∧ g.tileBuffer = [1, 2, 3, 7, 8, 9]) :=
  ⟨rfl, rfl, bound21_inv _, by decide, by decide, by decide, by decide, by decide, _, rfl, rfl⟩

/-- TilePathAndScanlinePathAgree: both paths to a close with success, from one block. -/
theorem witness_tile_path :
    SessionInv (tiled21 [8]).block ∧ (tiled21 [8]).block.rowcnt = 0 ∧
    (∃ g, closeSession .error (tiled21 [8]) = .next (g, .success)) ∧
    (∃ t k, runCommands (encCommands [(0, [1, 2, 3, 4, 5, 6])]) (tiled21 [8]).block = .next t ∧
      sessionResult (tiled21 [8]).block t = .success ∧
      closeSession .error { block := t, tiled := false, tileBuffer := [] } = .next (k, .success)) ∧
    (∀ y, y < (tiled21 [8]).block.height.toNat →
      lastSent [(0, [1, 2, 3, 4, 5, 6])] y =
        some (bufferRow (tiled21 [8]).block.width.toNat (tiled21 [8]).block.nchan.toNat (tiled21 [8]).tileBuffer y)) :=
  ⟨bound21_inv _, rfl, ⟨_, rfl⟩, ⟨_, _, rfl, rfl, rfl⟩, by decide⟩

/-- RowOrderDoesNotMatter: a replay that succeeds, and transactions with a read, a refused command and an illegal one between
rows, after which the session is open. -/
theorem witness_row_order_more :
    (∃ u, runCommands (replayCommands 2 2 3 [1, 2, 3, 4, 5, 6, 0x11, 0x12, 0x13, 0x14, 0x15, 0x16]) (bound22 [8, 8]) =
      .next u ∧ sessionResult (bound22 [8, 8]) u = .success) ∧
    (∃ t, runSteps 5 { bound22 [8, 8] with inbox :=
        [encode (.enc 1 [1, 2, 3, 4, 5, 6]), encode (.rd .status), encode .bind, ⟨0, []⟩, encode (.enc 0 [1, 2, 3, 4, 5, 6])] } =
      .next t ∧ t.st = .opened) ∧
    lastSent (rowsSent (bound22 []) [encode (.enc 1 [1, 2, 3, 4, 5, 6]), encode .bind]) 1 = some [1, 2, 3, 4, 5, 6] :=
  ⟨⟨_, rfl, rfl⟩, ⟨_, rfl, rfl⟩, rfl⟩

end Sys2Proof.Tests
end

section
/-! SUPPORT. What the decoder accepts: each shared check of a format, said once, and that an accepted command is well formed. -/

namespace Sys2Proof

theorem decodeFormatP_eq_ok {t : Transaction} {d : Except DecodeError Instr} {i : Instr} :
    decodeFormatP t d = .ok i ↔ rsvOf t.word = 0 ∧ d = .ok i := by
  unfold decodeFormatP
  split <;> simp_all

theorem decodeFormatI_eq_ok {t : Transaction} {d : Except DecodeError Instr} {i : Instr} :
    decodeFormatI t d = .ok i ↔ rsvOf t.word = 0 ∧ t.payload = [] ∧ d = .ok i := by
  unfold decodeFormatI
  rw [decodeFormatP_eq_ok]
  split <;> simp [*]

theorem decodeFormatZ_eq_ok {t : Transaction} {i j : Instr} :
    decodeFormatZ t j = .ok i ↔ rsvOf t.word = 0 ∧ t.payload = [] ∧ immOf t.word = 0 ∧ j = i := by
  unfold decodeFormatZ
  rw [decodeFormatI_eq_ok]
  split <;> simp_all

theorem decodeDimension_eq_ok {imm : Word32} {mk : Word32 → Instr} {i : Instr} :
    decodeDimension imm mk = .ok i ↔ imm.toNat < 2 ^ 31 ∧ mk imm = i := by
  unfold decodeDimension
  split <;> simp_all

theorem decodeRegister_eq_ok {imm : Word32} {i : Instr} :
    decodeRegister imm = .ok i ↔ ∃ r, regOfIndex imm.toNat = some r ∧ .rd r = i := by
  unfold decodeRegister
  split <;> simp [*]

/-- The decoder gives only operands that the encoding allows (30_encoding.md R85). -/
theorem wellFormed_of_decode {t : Transaction} {i : Instr} (h : decode t = .ok i) : i.WellFormed := by
  unfold decode at h
  split at h
  · obtain ⟨-, -, h⟩ := decodeFormatI_eq_ok.mp h
    obtain ⟨himm, rfl⟩ := decodeDimension_eq_ok.mp h
    exact himm
  · obtain ⟨-, -, h⟩ := decodeFormatI_eq_ok.mp h
    obtain ⟨himm, rfl⟩ := decodeDimension_eq_ok.mp h
    exact himm
  · obtain ⟨-, -, h⟩ := decodeFormatI_eq_ok.mp h
    cases h
    trivial
  · obtain ⟨-, -, -, rfl⟩ := decodeFormatZ_eq_ok.mp h
    trivial
  · obtain ⟨-, h⟩ := decodeFormatP_eq_ok.mp h
    cases h
    trivial
  · obtain ⟨-, -, -, rfl⟩ := decodeFormatZ_eq_ok.mp h
    trivial
  · obtain ⟨-, -, h⟩ := decodeFormatI_eq_ok.mp h
    obtain ⟨r, -, rfl⟩ := decodeRegister_eq_ok.mp h
    trivial
  · cases h

end Sys2Proof
end

section
/-! SUPPORT. The session invariant of 10_state.md R34: what keeps it, one lemma for each update a command makes, and what
follows from it. -/

namespace Sys2Proof.Machine

/-! ## Updates that keep the invariant -/

theorem SessionInv.answer_keeps {s : State} (hs : SessionInv s) (e : ErrorKind) (v : BitVec 56) : SessionInv (answer e v s) :=
  hs.of_registers rfl

theorem SessionInv.inbox_keeps {s : State} (hs : SessionInv s) (rest : List Transaction) :
    SessionInv { s with inbox := rest } :=
  hs.of_registers rfl

/-- Item 1 leaves the three staged registers free within their bounds: `SETW`, `SETH` and `SETC` (10_state.md R34). -/
theorem SessionInv.stage_keeps {s : State} (hs : SessionInv s) (hst : s.st = .unopened) {w h : Word32} (c : Word32)
    (hw : w.toNat < Config.dimensionLimit) (hh : h.toNat < Config.dimensionLimit) :
    SessionInv { s with width := w, height := h, nchan := c } where
  unopened := hs.unopened
  bound h := absurd hst h
  opened := hs.opened
  fits h := absurd hst h
  closed := hs.closed
  widthBound := hw
  heightBound := hh
  padlenAligned := hs.padlenAligned
  sinkWf := hs.sinkWf

/-- `PIXOFF` and `PADLEN` after `BIND` hold the formulas' exact values (40_config.md R108). -/
theorem boundState_pixoff_toNat (s : State) : (boundState s).pixoff.toNat = pixelOffset s.nchan.toNat :=
  Nat.mod_eq_of_lt (pixelOffset_lt _)

theorem boundState_padlen_toNat {s : State} (hw : s.width.toNat < 2 ^ 31) (hc : LegalChannels s.nchan.toNat) :
    (boundState s).padlen.toNat = padLength s.width.toNat s.nchan.toNat :=
  Nat.mod_eq_of_lt (padLength_fits hw hc)

theorem SessionInv.boundState_keeps {s : State} (hs : SessionInv s) (hst : s.st = .unopened) (hc : LegalChannels s.nchan.toNat)
    (hf : projectedSize s.width.toNat s.height.toNat s.nchan.toNat < Config.maxFile) : SessionInv (boundState s) := by
  obtain ⟨-, -, hpoison, hfault, -, hrel⟩ := hs.unopened hst
  have hpixoff := boundState_pixoff_toNat s
  have hpadlen := boundState_padlen_toNat hs.widthBound hc
  exact {
    unopened := fun h => nomatch h
    bound := fun _ => ⟨hc, hpixoff, hpadlen⟩
    opened := fun _ => ⟨hpoison, hfault, hrel⟩
    fits := fun _ => by
      rw [hpixoff, hpadlen, Nat.add_comm]
      exact hf
    closed := fun h => nomatch h
    widthBound := hs.widthBound
    heightBound := hs.heightBound
    padlenAligned := by rw [hpadlen]; exact padLength_mod _ _
    sinkWf := hs.sinkWf }

/-- In `OPEN` the row counter, the row buffer and the sink are free, as long as the sink bytes stay in canonical form. -/
theorem SessionInv.of_opened {s t : State} (hs : SessionInv s) (hst : s.st = .opened) (hwf : t.sink.wf)
    (h : t = { s with
      rowcnt := t.rowcnt, rowbuf := t.rowbuf, sink := t.sink, sinkPos := t.sinkPos, sinkAnswers := t.sinkAnswers,
      sinkWrites := t.sinkWrites }) : SessionInv t := by
  rw [h]
  exact {
    unopened := fun hu => by cases hst.symm.trans hu
    bound := hs.bound
    opened := hs.opened
    fits := hs.fits
    closed := hs.closed
    widthBound := hs.widthBound
    heightBound := hs.heightBound
    padlenAligned := hs.padlenAligned
    sinkWf := hwf }

theorem SessionInv.rowcnt_keeps {s : State} (hs : SessionInv s) (hst : s.st = .opened) (n : Word32) :
    SessionInv { s with rowcnt := n } :=
  hs.of_opened hst hs.sinkWf rfl

theorem afterWrite_sink_wf {s : State} (hwf : s.sink.wf) (row : Word32) (payload : List Byte)
    (he : rowAddress s row.toNat + acceptedCount s.padlen.toNat s ≤ Config.sinkSize) :
    (afterWrite row payload s).sink.wf := by
  refine Memory.wf_writeBytes _ hwf (le_trans (Nat.add_le_add_left ?_ _) he)
  exact List.length_take_le _ _

theorem SessionInv.afterWrite_keeps {s : State} (hs : SessionInv s) (hst : s.st = .opened) (row : Word32) (payload : List Byte)
    (he : rowAddress s row.toNat + acceptedCount s.padlen.toNat s ≤ Config.sinkSize) :
    SessionInv (afterWrite row payload s) :=
  hs.of_opened hst (afterWrite_sink_wf hs.sinkWf row payload he) rfl

/-- Items 3 and 5: the first release ends an open session, with the error registers as item 5 has them. -/
theorem SessionInv.close_keeps {s : State} (hs : SessionInv s) (hst : s.st = .opened) {p : Bool} {f : BitVec 8}
    (hpf : (p = true ∧ (f = 5 ∨ f = 6)) ∨ (p = false ∧ f = 0)) :
    SessionInv { s with st := .closed, poison := p, faultCode := f, releases := s.releases + 1 } := by
  obtain ⟨-, -, hrel⟩ := hs.opened hst
  have hne : s.st ≠ .unopened := by simp [hst]
  exact {
    unopened := fun h => nomatch h
    bound := fun _ => hs.bound hne
    opened := fun h => nomatch h
    fits := fun _ => hs.fits hne
    closed := fun _ => ⟨hpf, by simp [hrel]⟩
    widthBound := hs.widthBound
    heightBound := hs.heightBound
    padlenAligned := hs.padlenAligned
    sinkWf := hs.sinkWf }

theorem SessionInv.aborted_keeps {s : State} (hs : SessionInv s) (hst : s.st = .opened) {e : ErrorKind}
    (he : e = .rowIndexOutOfRange ∨ e = .shortWrite) : SessionInv (aborted e s) :=
  hs.close_keeps hst (.inl ⟨rfl, by rcases he with rfl | rfl <;> simp [ErrorKind.code]⟩)

theorem SessionInv.release_keeps {s : State} (hs : SessionInv s) (hst : s.st = .opened) :
    SessionInv { sinkRelease s with st := .closed } := by
  obtain ⟨hpoison, hfault, -⟩ := hs.opened hst
  exact hs.close_keeps hst (.inr ⟨hpoison, hfault⟩)

/-- Every effect of a well-formed command keeps the invariant. -/
theorem Effect.keeps_sessionInv {s t : State} {i : Instr} (he : Effect s i t) (hs : SessionInv s) (hi : i.WellFormed) :
    SessionInv t := by
  cases he with
  | notAdmitted | badChannels | tooLarge | badLength | registerRead | releasedBefore => exact hs.answer_keeps _ _
  | widthSet imm h => exact (hs.stage_keeps h s.nchan hi hs.heightBound).answer_keeps _ _
  | heightSet imm h => exact (hs.stage_keeps h s.nchan hs.widthBound hi).answer_keeps _ _
  | channelsSet imm h => exact (hs.stage_keeps h imm hs.widthBound hs.heightBound).answer_keeps _ _
  | bound h hc hf => exact (hs.boundState_keeps h hc hf).answer_keeps _ _
  | rowRejected row payload h => exact (hs.aborted_keeps h (.inl rfl)).answer_keeps _ _
  | rowWritten row payload h hr hl hn ha he =>
    have hw := hs.afterWrite_keeps h row payload (by rw [hn]; exact he)
    exact (hw.rowcnt_keeps h (rowcntNext s.rowcnt)).answer_keeps _ _
  | rowShort row payload h hr hl hn ha he =>
    exact ((hs.afterWrite_keeps h row payload he).aborted_keeps h (.inr rfl)).answer_keeps _ _
  | released h => exact (hs.release_keeps h).answer_keeps _ _

theorem step_keeps_sessionInv {s t : State} (hs : SessionInv s) (h : step s = .next t) : SessionInv t := by
  obtain ⟨-, rfl⟩ | ⟨tr, rest, e, -, -, rfl⟩ | ⟨tr, rest, i, -, hd, he⟩ := step_cases h
  · exact hs
  · exact (hs.inbox_keeps rest).answer_keeps _ _
  · exact he.keeps_sessionInv (hs.inbox_keeps rest) (wellFormed_of_decode hd)

theorem sessionInv_blockReset {s : State} (hwf : s.sink.wf) : SessionInv (blockReset s) where
  unopened _ := ⟨rfl, rfl, rfl, rfl, rfl, rfl⟩
  bound h := absurd rfl h
  opened h := nomatch h
  fits h := absurd rfl h
  closed h := nomatch h
  widthBound := by simp
  heightBound := by simp
  padlenAligned := rfl
  sinkWf := hwf

/-! ## No stop -/

theorem finishRow_answers (n : Nat) (s : State) : ∃ t, finishRow n s = .next t := by
  unfold finishRow
  split <;> exact ⟨_, rfl⟩

theorem whenUnopened_answers (s effect : State) : ∃ t, whenUnopened s effect = .next t := by
  unfold whenUnopened
  split <;> exact ⟨_, rfl⟩

/-- A row of the bound image lies inside the sink, so its seek and its write answer (20_memory.md R60, R61). -/
theorem SessionInv.writeRow_answers {s : State} (hs : SessionInv s) (hst : s.st = .opened) {row : Word32}
    (hr : row.toNat < s.height.toNat) (payload : List Byte) : ∃ t, writeRow row payload s = .next t := by
  have hend := hs.row_end (by simp [hst]) hr
  have hacc := acceptedCount_le s.padlen.toNat s
  rw [writeRow_eq (by rw [Config.sinkSize_eq]; omega) (by rw [Config.sinkSize_eq]; omega)]
  exact finishRow_answers _ _

theorem SessionInv.exec_answers {s : State} (hs : SessionInv s) (i : Instr) : ∃ t, exec i s = .next t := by
  cases i with
  | setw imm => exact whenUnopened_answers _ _
  | seth imm => exact whenUnopened_answers _ _
  | setc imm => exact whenUnopened_answers _ _
  | bind =>
    simp only [exec, execBind]
    split_ifs <;> exact ⟨_, rfl⟩
  | enc row payload =>
    simp only [exec, execEnc]
    split_ifs with hst hr hl
    · exact ⟨_, rfl⟩
    · exact ⟨_, rfl⟩
    · exact ⟨_, rfl⟩
    · exact hs.writeRow_answers (not_not.mp hst) (not_le.mp hr) payload
  | rel =>
    simp only [exec, execRel]
    split <;> exact ⟨_, rfl⟩
  | rd reg => exact ⟨_, rfl⟩

theorem SessionInv.step_answers {s : State} (hs : SessionInv s) : ∃ t, step s = .next t := by
  cases hb : s.inbox with
  | nil => exact ⟨s, step_idle hb⟩
  | cons tr rest =>
    cases hd : decode tr with
    | error e => exact ⟨_, step_illegal hb hd⟩
    | ok i =>
      rw [step_legal hb hd]
      exact (hs.inbox_keeps rest).exec_answers i

theorem runSteps_succ {s u : State} (h : step s = .next u) (k : Nat) : runSteps (k + 1) s = runSteps k u := by
  simp only [runSteps, Host.Core.run, Sys2Proof.core, h]

/-- Any number of steps from a state that meets the invariant answers, and the state it answers meets it. -/
theorem SessionInv.runSteps_answers {s : State} (hs : SessionInv s) (k : Nat) :
    ∃ t, runSteps k s = .next t ∧ SessionInv t := by
  induction k generalizing s with
  | zero => exact ⟨s, rfl, hs⟩
  | succ k ih =>
    obtain ⟨u, hu⟩ := hs.step_answers
    rw [runSteps_succ hu]
    exact ih (step_keeps_sessionInv hs hu)

/-! ## Consequences -/

theorem SessionInv.releases_eq {s : State} (hs : SessionInv s) : s.releases = if s.st = .closed then 1 else 0 := by
  cases hst : s.st with
  | unopened =>
    obtain ⟨-, -, -, -, -, hrel⟩ := hs.unopened hst
    simp [hrel]
  | opened =>
    obtain ⟨-, -, hrel⟩ := hs.opened hst
    simp [hrel]
  | closed =>
    obtain ⟨-, hrel⟩ := hs.closed hst
    simp [hrel]

/-- Row `r` of the file ends below `2^32` (10_state.md R34 item 4). -/
theorem SessionInv.diskRow_end_lt {s : State} (hs : SessionInv s) (hst : s.st ≠ .unopened) {r : Nat}
    (hr : r < s.height.toNat) : s.pixoff.toNat + (r + 1) * s.padlen.toNat < 2 ^ 32 := by
  have hfits := hs.fits hst
  have hrow : (r + 1) * s.padlen.toNat ≤ s.height.toNat * s.padlen.toNat := Nat.mul_le_mul_right _ hr
  rw [Config.maxFile_eq, Nat.mul_comm] at hfits
  omega

theorem SessionInv.samples_le_padlen {s : State} (hs : SessionInv s) (hst : s.st ≠ .unopened) :
    s.width.toNat * s.nchan.toNat ≤ s.padlen.toNat := by
  obtain ⟨-, -, hpadlen⟩ := hs.bound hst
  rw [hpadlen]
  exact le_padLength _ _

end Sys2Proof.Machine
end

section
/-! SUPPORT. What a command keeps of the geometry and of the row counter, and what refuses it. -/

namespace Sys2Proof.Machine

/-- A command outside the permission matrix is answered `BadState` (42_session.md R142). -/
theorem exec_notAdmitted {i : Instr} {s : State} (h : admits s.st i = false) :
    exec i s = .next (answer .badState 0 s) := by
  cases i with
  | setw imm => exact if_neg (by simpa [admits] using h)
  | seth imm => exact if_neg (by simpa [admits] using h)
  | setc imm => exact if_neg (by simpa [admits] using h)
  | bind => exact if_pos (by simpa [admits] using h)
  | enc row payload => exact if_pos (by simpa [admits] using h)
  | rel =>
    have hst : s.st = .unopened := by simpa [admits] using h
    simp [exec, execRel, hst]
  | rd reg => cases h

/-- Two states with the same geometry registers (10_state.md R35). -/
def SameGeometry (s t : State) : Prop :=
  t.width = s.width ∧ t.height = s.height ∧ t.nchan = s.nchan ∧ t.pixoff = s.pixoff ∧ t.padlen = s.padlen

/-- The commands that write a geometry register act in `UNOPENED` only. -/
theorem Effect.sameGeometry {s t : State} {i : Instr} (he : Effect s i t) (hst : s.st ≠ .unopened) : SameGeometry s t := by
  cases he with
  | widthSet _ h | heightSet _ h | channelsSet _ h | bound h => exact absurd h hst
  | notAdmitted | badChannels | tooLarge | badLength | registerRead | releasedBefore | rowRejected | rowWritten | rowShort
  | released => exact ⟨rfl, rfl, rfl, rfl, rfl⟩

theorem step_sameGeometry {s t : State} (hst : s.st ≠ .unopened) (h : step s = .next t) : SameGeometry s t := by
  obtain ⟨-, rfl⟩ | ⟨tr, rest, e, -, -, rfl⟩ | ⟨tr, rest, i, -, -, he⟩ := step_cases h
  · exact ⟨rfl, rfl, rfl, rfl, rfl⟩
  · exact ⟨rfl, rfl, rfl, rfl, rfl⟩
  · exact he.sameGeometry hst

/-- A response word with value 0 is the word 0 for `OK` only (30_encoding.md R87). -/
theorem responseWord_zero_eq_zero_iff (e : ErrorKind) : responseWord e 0 = 0 ↔ e = .ok := by cases e <;> decide

/-- An error's answer is not the word 0 of success. -/
theorem answer_responses_ne_ok {e : ErrorKind} {s : State} (he : e ≠ .ok) :
    (answer e 0 s).responses ≠ s.responses ++ [0] := by
  rw [answer_responses, Ne, List.append_cancel_left_eq, List.singleton_inj, responseWord_zero_eq_zero_iff]
  exact he

theorem Effect.rowcnt_of_bind_ok {s t : State} (he : Effect s .bind t) (hok : t.responses = s.responses ++ [0]) :
    t.rowcnt = 0 := by
  cases he with
  | notAdmitted | badChannels | tooLarge => exact absurd hok (answer_responses_ne_ok (by decide))
  | bound => rfl

theorem Effect.rowcnt_of_enc_ok {s t : State} {row : Word32} {payload : List Byte} (he : Effect s (.enc row payload) t)
    (hok : t.responses = s.responses ++ [0]) : t.rowcnt = rowcntNext s.rowcnt := by
  cases he with
  | notAdmitted | badLength | rowRejected | rowShort => exact absurd hok (answer_responses_ne_ok (by decide))
  | rowWritten => rfl

/-- Only a successful `BIND` and a successful `ENC`, both answered with the word 0, write `ROWCNT` (10_state.md R28). -/
theorem Effect.rowcnt_eq_or_ok {s t : State} {i : Instr} (he : Effect s i t) :
    t.rowcnt = s.rowcnt ∨ (t.responses = s.responses ++ [0] ∧ (i = .bind ∨ ∃ row payload, i = .enc row payload)) := by
  cases he with
  | bound => exact .inr ⟨rfl, .inl rfl⟩
  | rowWritten row payload => exact .inr ⟨rfl, .inr ⟨row, payload, rfl⟩⟩
  | notAdmitted | badChannels | tooLarge | badLength | registerRead | releasedBefore | widthSet | heightSet | channelsSet
  | rowRejected | rowShort | released => exact .inl rfl

end Sys2Proof.Machine
end

section
/-! CERTIFICATE. The statements about the state (10_state.md). -/

namespace Sys2Proof.Certificates

open Sys2Proof Sys2Proof.Machine

/-- Settles O45: every effect of a well-formed command keeps each item, and the decoder gives well-formed commands only. -/
theorem everyStepKeepsTheSessionInvariant : Obligations.EveryStepKeepsTheSessionInvariant := by
  unfold Obligations.EveryStepKeepsTheSessionInvariant
  intro s t hs h
  exact step_keeps_sessionInv hs h

/-- Settles O15: the effects that write the geometry need `UNOPENED`, and the matrix refuses the four commands elsewhere. -/
theorem geometryIsFixedAfterBind : Obligations.GeometryIsFixedAfterBind := by
  unfold Obligations.GeometryIsFixedAfterBind
  refine ⟨fun s t hst h => step_sameGeometry hst h, ?_⟩
  intro s i hst hi
  have hrefused : admits s.st i = false := by
    obtain ⟨v, rfl⟩ | ⟨v, rfl⟩ | ⟨v, rfl⟩ | rfl := hi <;> simp [admits, hst]
  exact exec_notAdmitted hrefused

/-- Settles O40: an illegal transaction leaves the counter, and a command's effect on it goes with its answer. -/
theorem rowcntCountsSuccessfulRows : Obligations.RowcntCountsSuccessfulRows := by
  unfold Obligations.RowcntCountsSuccessfulRows
  intro s t tr rest hb h
  cases hd : decode tr with
  | error e =>
    have ht : t = answer .illegalCommand 0 { s with inbox := rest } := by
      rw [step_illegal hb hd] at h
      injection h with h
      exact h.symm
    subst ht
    simp
  | ok i =>
    rw [step_legal hb hd] at h
    have he := exec_effect h
    refine ⟨?_, ?_, ?_, ?_⟩
    · intro hi hok
      cases hi
      exact he.rowcnt_of_bind_ok hok
    · intro row payload hi hok
      cases hi
      rw [he.rowcnt_of_enc_ok hok, rowcntNext_toNat]
    · intro hne
      obtain hkept | ⟨hok, -⟩ := he.rowcnt_eq_or_ok
      · exact hkept
      · exact absurd hok hne
    · intro hbind henc
      obtain hkept | ⟨-, rfl | ⟨row, payload, rfl⟩⟩ := he.rowcnt_eq_or_ok
      · exact hkept
      · exact absurd rfl hbind
      · exact absurd rfl (henc row payload)

/-- Settles O46: an admitted row lies inside the sink, so the seek and the write of `ENC` answer. -/
theorem noStepStopsUnderTheInvariant : Obligations.NoStepStopsUnderTheInvariant := by
  unfold Obligations.NoStepStopsUnderTheInvariant
  intro s hs
  exact hs.step_answers

/-- Settles O47, by induction on the number of steps, from the invariant at reset. -/
theorem runsFromResetMeetTheInvariants : Obligations.RunsFromResetMeetTheInvariants := by
  unfold Obligations.RunsFromResetMeetTheInvariants
  intro s k hstart hwf
  have hs : SessionInv s := by
    rw [← hstart]
    exact sessionInv_blockReset hwf
  obtain ⟨t, hrun, ht⟩ := hs.runSteps_answers k
  refine ⟨t, hrun, ht, ht.releases_eq, fun hst hheight => ?_⟩
  have hfirst := ht.diskRow_end_lt hst hheight
  have hsamples := ht.samples_le_padlen hst
  exact ⟨by omega, by omega, fun r hr => (ht.diskRow_end_lt hst hr).le⟩

/-- Settles O41: each register by its reset value; with no channel count staged, `BIND` stops at its second check. -/
theorem resetLeavesEveryRegisterZero : Obligations.ResetLeavesEveryRegisterZero := by
  unfold Obligations.ResetLeavesEveryRegisterZero
  have hreg : ∀ r : Reg, readReg r State.reset = 0 := by
    intro r
    cases r <;> rfl
  have hbind : exec .bind State.reset = .next { State.reset with responses := [0x0200000000000000] } := rfl
  exact ⟨fun s => by simp, hreg, rfl, rfl, hbind⟩

/-- Settles O44: `State.reset` is reset applied to itself, with no sink byte written. -/
theorem resetMeetsTheSessionInvariant : Obligations.ResetMeetsTheSessionInvariant := by
  unfold Obligations.ResetMeetsTheSessionInvariant
  have hempty : State.reset.sink.wf := ⟨.nil, nofun⟩
  exact ⟨sessionInv_blockReset hempty, fun s hwf => sessionInv_blockReset hwf⟩

end Sys2Proof.Certificates
end

section
/-! SUPPORT. The sink's bytes and position decide nothing: one lemma for each shared operation that two states off the sink
meet alike (20_memory.md R63). -/

namespace Sys2Proof.Machine

/-- What two steps that start at `s` and `t` do to the sink is the same: each byte and the position are left as found by both,
or are the same after both. -/
def SameSinkEffect (s t s' t' : State) : Prop :=
  (∀ b, (s'.sink.read b = s.sink.read b ∧ t'.sink.read b = t.sink.read b) ∨ s'.sink.read b = t'.sink.read b) ∧
  ((s'.sinkPos = s.sinkPos ∧ t'.sinkPos = t.sinkPos) ∨ s'.sinkPos = t'.sinkPos)

/-- Two outcomes, from `s` and from `t`, that differ in nothing but the sink, which both treat alike; or the same stop. -/
inductive AlikeOffSink (s t : State) : Host.Outcome State Fault Refusal → Host.Outcome State Fault Refusal → Prop where
  | next {s' t' : State} (ha : AgreeOffSink s' t') (he : SameSinkEffect s t s' t') : AlikeOffSink s t (.next s') (.next t')
  | fault (f : Fault) : AlikeOffSink s t (.fault f) (.fault f)

/-- Where the two sides test the same, alike branches make them alike. -/
theorem AlikeOffSink.ite {s t : State} {P Q : Prop} [Decidable P] [Decidable Q] {a b a' b' : Host.Outcome State Fault Refusal}
    (hpq : P ↔ Q) (ha : AlikeOffSink s t a a') (hb : AlikeOffSink s t b b') :
    AlikeOffSink s t (if P then a else b) (if Q then a' else b') := by
  by_cases hq : Q
  · rwa [if_pos (hpq.mpr hq), if_pos hq]
  · rwa [if_neg (hpq.not.mpr hq), if_neg hq]

/-- `s` with the sink's bytes and position replaced. -/
def onSink (m : Memory) (p : Nat) (s : State) : State := { s with sink := m, sinkPos := p }

@[simp] theorem readReg_onSink (m : Memory) (p : Nat) (r : Reg) (s : State) : readReg r (onSink m p s) = readReg r s := by
  cases r <;> rfl

theorem agreeOffSink_onSink (m : Memory) (p : Nat) (s : State) : AgreeOffSink (onSink m p s) s := rfl

theorem AgreeOffSink.eq_onSink {s t : State} (h : AgreeOffSink s t) : s = onSink s.sink s.sinkPos t := h.symm

theorem SameSinkEffect.of_kept {s t s' t' : State} (hs : s'.sink = s.sink) (ht : t'.sink = t.sink)
    (hps : s'.sinkPos = s.sinkPos) (hpt : t'.sinkPos = t.sinkPos) : SameSinkEffect s t s' t' :=
  ⟨fun _ => .inl ⟨by rw [hs], by rw [ht]⟩, .inl ⟨hps, hpt⟩⟩

/-- The same bytes written at the same address: inside they are read after both writes, outside nothing changes. -/
theorem SameSinkEffect.of_writeBytes {s t s' t' : State} (a : Nat) (bs : List Byte) (hs : s'.sink = s.sink.writeBytes a bs)
    (ht : t'.sink = t.sink.writeBytes a bs) (hp : s'.sinkPos = t'.sinkPos) : SameSinkEffect s t s' t' := by
  refine ⟨fun b => ?_, .inr hp⟩
  rw [hs, ht, Memory.read_writeBytes, Memory.read_writeBytes]
  by_cases hb : a ≤ b ∧ b < a + bs.length
  · exact .inr (by rw [if_pos hb, if_pos hb])
  · exact .inl ⟨if_neg hb, if_neg hb⟩

/-- `REL` from `OPEN` releases the sink and closes (42_session.md R140). -/
theorem exec_rel_opened {s : State} (hst : s.st = .opened) :
    exec .rel s = .next (answer .ok 0 { sinkRelease s with st := .closed }) := by
  simp [exec, execRel, hst]

/-- `REL` from `CLOSED` is a no-op success (42_session.md R140). -/
theorem exec_rel_closed {s : State} (hst : s.st = .closed) : exec .rel s = .next (answer .ok 0 s) := by
  simp [exec, execRel, hst]

/-- The admitted row, every path of it: a stop at its seek, a stop at its write, or the result stage (41_encode.md R127 to
R129). -/
theorem writeRow_eq_ite (row : Word32) (payload : List Byte) (s : State) :
    writeRow row payload s =
      if rowAddress s row.toNat < Config.sinkSize then
        if rowAddress s row.toNat + acceptedCount s.padlen.toNat s ≤ Config.sinkSize then
          finishRow (acceptedCount s.padlen.toNat s) (afterWrite row payload s)
        else .fault (.sinkAddressAbsent (rowAddress s row.toNat + acceptedCount s.padlen.toNat s - 1))
      else .fault (.sinkAddressAbsent (rowAddress s row.toNat)) := by
  by_cases ha : rowAddress s row.toNat < Config.sinkSize
  · by_cases he : rowAddress s row.toNat + acceptedCount s.padlen.toNat s ≤ Config.sinkSize
    · rw [writeRow_eq ha he, if_pos ha, if_pos he]
    · have hacc : acceptedCount s.padlen.toNat
          { s with rowbuf := rowBuffer s payload, sinkPos := rowAddress s row.toNat } = acceptedCount s.padlen.toNat s := rfl
      rw [if_pos ha, if_neg he, writeRow, sinkSeek, if_pos ha]
      simp only [sinkWrite, diskBytes_length, hacc, if_neg he]
  · rw [if_neg ha, writeRow, sinkSeek, if_neg ha]

section
variable (m : Memory) (p : Nat) (s : State)

/-- An answer leaves the sink alone, so states that keep the sink they started on are answered alike. -/
theorem alikeOffSink_answer {t : State} (hsink : t.sink = s.sink) (hpos : t.sinkPos = s.sinkPos) (e : ErrorKind)
    (v : BitVec 56) : AlikeOffSink (onSink m p s) s (.next (answer e v (onSink m p t))) (.next (answer e v t)) :=
  .next (agreeOffSink_onSink m p (answer e v t)) (.of_kept rfl hsink rfl hpos)

theorem alikeOffSink_whenUnopened {t : State} (hsink : t.sink = s.sink) (hpos : t.sinkPos = s.sinkPos) :
    AlikeOffSink (onSink m p s) s (whenUnopened (onSink m p s) (onSink m p t)) (whenUnopened s t) :=
  .ite .rfl (alikeOffSink_answer m p s hsink hpos _ _) (alikeOffSink_answer m p s rfl rfl _ _)

/-- The result stage after a row was written to both sinks: the row's place and bytes come from the registers. -/
theorem alikeOffSink_finishRow (row : Word32) (payload : List Byte) (n : Nat) :
    AlikeOffSink (onSink m p s) s (finishRow n (afterWrite row payload (onSink m p s)))
      (finishRow n (afterWrite row payload s)) := by
  have hrow : SameSinkEffect (onSink m p s) s (afterWrite row payload (onSink m p s)) (afterWrite row payload s) :=
    .of_writeBytes _ _ rfl rfl rfl
  exact .ite .rfl (.next rfl hrow) (.next rfl hrow)

theorem alikeOffSink_writeRow (row : Word32) (payload : List Byte) :
    AlikeOffSink (onSink m p s) s (writeRow row payload (onSink m p s)) (writeRow row payload s) := by
  rw [writeRow_eq_ite, writeRow_eq_ite]
  exact .ite .rfl (.ite .rfl (alikeOffSink_finishRow m p s row payload _) (.fault _)) (.fault _)

/-- No command's outcome depends on the sink it finds (20_memory.md R63). -/
theorem alikeOffSink_exec (i : Instr) : AlikeOffSink (onSink m p s) s (exec i (onSink m p s)) (exec i s) := by
  cases i with
  | setw imm => exact alikeOffSink_whenUnopened m p s (t := { s with width := imm }) rfl rfl
  | seth imm => exact alikeOffSink_whenUnopened m p s (t := { s with height := imm }) rfl rfl
  | setc imm => exact alikeOffSink_whenUnopened m p s (t := { s with nchan := imm }) rfl rfl
  | bind =>
    exact .ite .rfl (alikeOffSink_answer m p s rfl rfl _ _) <|
      .ite .rfl (alikeOffSink_answer m p s rfl rfl _ _) <|
      .ite .rfl (alikeOffSink_answer m p s rfl rfl _ _) (alikeOffSink_answer m p s (t := boundState s) rfl rfl _ _)
  | enc row payload =>
    exact .ite .rfl (alikeOffSink_answer m p s rfl rfl _ _) <|
      .ite .rfl (alikeOffSink_answer m p s (t := aborted .rowIndexOutOfRange s) rfl rfl _ _) <|
      .ite .rfl (alikeOffSink_answer m p s rfl rfl _ _) (alikeOffSink_writeRow m p s row payload)
  | rel =>
    cases hst : s.st with
    | unopened =>
      have hrefused : admits s.st .rel = false := by rw [hst]; rfl
      rw [exec_notAdmitted hrefused, exec_notAdmitted (s := onSink m p s) hrefused]
      exact alikeOffSink_answer m p s rfl rfl _ _
    | opened =>
      rw [exec_rel_opened hst, exec_rel_opened (s := onSink m p s) hst]
      exact alikeOffSink_answer m p s (t := { sinkRelease s with st := .closed }) rfl rfl _ _
    | closed =>
      rw [exec_rel_closed hst, exec_rel_closed (s := onSink m p s) hst]
      exact alikeOffSink_answer m p s rfl rfl _ _
  | rd reg =>
    simp only [exec, execRd, readReg_onSink]
    exact alikeOffSink_answer m p s rfl rfl _ _

/-- Taking a transaction off the host's list touches no sink. -/
theorem AlikeOffSink.of_inbox {m : Memory} {p : Nat} {s : State} {rest : List Transaction}
    {o o' : Host.Outcome State Fault Refusal}
    (h : AlikeOffSink (onSink m p { s with inbox := rest }) { s with inbox := rest } o o') :
    AlikeOffSink (onSink m p s) s o o' := by
  cases h with
  | next ha he => exact .next ha he
  | fault f => exact .fault f

theorem alikeOffSink_step : AlikeOffSink (onSink m p s) s (step (onSink m p s)) (step s) := by
  cases hb : s.inbox with
  | nil =>
    rw [step_idle hb, step_idle (s := onSink m p s) hb]
    exact .next rfl (.of_kept rfl rfl rfl rfl)
  | cons tr rest =>
    apply AlikeOffSink.of_inbox (rest := rest)
    cases hd : decode tr with
    | error e =>
      rw [step_illegal hb hd, step_illegal (s := onSink m p s) hb hd]
      exact alikeOffSink_answer m p { s with inbox := rest } rfl rfl _ _
    | ok i =>
      rw [step_legal hb hd, step_legal (s := onSink m p s) hb hd]
      exact alikeOffSink_exec m p { s with inbox := rest } i

end

end Sys2Proof.Machine
end

section
/-! SUPPORT. The header bytes as a list of little-endian fields, and the palette (20_memory.md R52 to R54). -/

namespace Sys2Proof.Machine

/-- A list of fields, each its size in bytes and its value, as little-endian bytes one after the other. -/
def fieldBytes (fields : List (Nat × Nat)) : List Byte := (fields.map fun f => leBytes f.1 f.2).flatten

/-- The offset of field `k`: the sizes of the fields before it. -/
def fieldOffset (fields : List (Nat × Nat)) (k : Nat) : Nat := ((fields.take k).map Prod.fst).sum

theorem fieldBytes_length (fields : List (Nat × Nat)) : (fieldBytes fields).length = (fields.map Prod.fst).sum := by
  simp [fieldBytes, List.length_flatten, Function.comp_def]

/-- Field `k` of a record, read at its offset, is its value, when the value fits. -/
theorem leValue_field {fields : List (Nat × Nat)} {k n v : Nat} (hf : fields[k]? = some (n, v)) (hv : v < 256 ^ n)
    (rest : List Byte) : leValue (((fieldBytes fields ++ rest).drop (fieldOffset fields k)).take n) = v := by
  induction fields generalizing k with
  | nil => simp at hf
  | cons f fields ih =>
    have hcons : fieldBytes (f :: fields) ++ rest = leBytes f.1 f.2 ++ (fieldBytes fields ++ rest) := by
      simp [fieldBytes]
    cases k with
    | zero =>
      obtain rfl : f = (n, v) := by simpa using hf
      rw [hcons]
      simp [fieldOffset, leValue_leBytes n v hv]
    | succ k =>
      have hoff : fieldOffset (f :: fields) (k + 1) = f.1 + fieldOffset fields k := by simp [fieldOffset]
      have hdrop : (leBytes f.1 f.2 ++ (fieldBytes fields ++ rest)).drop f.1 = fieldBytes fields ++ rest :=
        List.drop_left' (leBytes_length _ _)
      rw [hcons, hoff, ← List.drop_drop, hdrop]
      exact ih (by simpa using hf)

/-- The fields of the two headers, in the order of 20_memory.md R52 and R53. -/
def headerFields (w h c : Nat) (res : Resolution) : List (Nat × Nat) :=
  [(2, 0x4D42), (4, projectedSize w h c), (2, 0), (2, 0), (4, pixelOffset c),
    (4, Config.dibHeaderSize), (4, w), (4, h), (2, 1), (2, 8 * c), (4, 0), (4, w * h),
    (4, res.horizontal.toNat), (4, res.vertical.toNat), (4, colorsUsed c), (4, colorsUsed c)]

theorem headerRegion_eq (w h c : Nat) (res : Resolution) :
    headerRegion w h c res = fieldBytes (headerFields w h c res) ++ palette c := by
  have hmagic : leBytes 2 0x4D42 = [0x42, 0x4D] := by decide
  simp only [headerRegion, fileHeader, dibHeader, fieldBytes, headerFields, List.map_cons, List.map_nil, List.flatten_cons,
    List.flatten_nil, List.append_nil, List.append_assoc, hmagic]

/-- Header field `k` reads as its value. -/
theorem leValue_headerField {w h c : Nat} (res : Resolution) {k n v : Nat} (hf : (headerFields w h c res)[k]? = some (n, v))
    (hv : v < 256 ^ n) :
    leValue (((headerRegion w h c res).drop (fieldOffset (headerFields w h c res) k)).take n) = v := by
  rw [headerRegion_eq]
  exact leValue_field hf hv _

/-- The file size field (20_memory.md R52). -/
theorem leValue_headerRegion_size {w h c : Nat} (res : Resolution) (hf : projectedSize w h c < 2 ^ 32) :
    leValue (((headerRegion w h c res).drop 2).take 4) = projectedSize w h c :=
  leValue_headerField (k := 1) res rfl hf

theorem paletteFrom_length (start n : Nat) : (paletteFrom start n).length = 4 * n := by
  induction n generalizing start with
  | zero => rfl
  | succ n ih =>
    simp only [paletteFrom, List.length_append, List.length_cons, List.length_nil, ih]
    omega

/-- Palette entry `i` is the grey `start + i` (20_memory.md R54). -/
theorem paletteFrom_entry {n i : Nat} (start : Nat) (hi : i < n) :
    ((paletteFrom start n).drop (4 * i)).take 4 =
      [BitVec.ofNat 8 (start + i), BitVec.ofNat 8 (start + i), BitVec.ofNat 8 (start + i), 255] := by
  induction n generalizing start i with
  | zero => omega
  | succ n ih =>
    cases i with
    | zero => simp [paletteFrom]
    | succ i =>
      have hdrop : (paletteFrom start (n + 1)).drop (4 * (i + 1)) = (paletteFrom (start + 1) n).drop (4 * i) := by
        simp [paletteFrom, Nat.mul_add]
      rw [hdrop, ih (start + 1) (by omega), Nat.add_assoc, Nat.add_comm 1 i]

theorem headerFields_length (w h c : Nat) (res : Resolution) : (fieldBytes (headerFields w h c res)).length = 54 := by
  simp [fieldBytes_length, headerFields]

/-- The header region ends where the pixel region starts (20_memory.md R51). -/
theorem headerRegion_length (w h c : Nat) (res : Resolution) : (headerRegion w h c res).length = pixelOffset c := by
  rw [headerRegion_eq, List.length_append, headerFields_length]
  unfold palette pixelOffset
  split <;> simp [paletteFrom_length]

/-- The palette stands behind the 54 bytes of the two headers (20_memory.md R54). -/
theorem headerRegion_palette (w h c : Nat) (res : Resolution) (k : Nat) :
    (headerRegion w h c res).drop (54 + k) = (palette c).drop k := by
  rw [headerRegion_eq, ← List.drop_drop, List.drop_append, headerFields_length, Nat.sub_self,
    List.drop_of_length_le (headerFields_length w h c res).le, List.nil_append, List.drop_zero]

end Sys2Proof.Machine
end

section
/-! SUPPORT. What a command does to the sink: nothing, or one write inside its row's place; and one `ENC` answered `OK`
(20_memory.md R51, R59, R60, R61). -/

namespace Sys2Proof.Machine

/-! ## Sink bytes -/

/-- Writing the same bytes again at the same address changes nothing (20_memory.md R59). -/
theorem Memory.writeBytes_again {m : Memory} (hm : m.Pairwise fun p q => p.1 < q.1) (a : Nat) (bs : List Byte) :
    (m.writeBytes a bs).writeBytes a bs = m.writeBytes a bs := by
  have hw := Memory.pairwise_writeBytes bs m a hm
  refine Memory.eq_of_read (Memory.pairwise_writeBytes bs _ a hw) hw fun b => ?_
  rw [Memory.read_writeBytes]
  split
  next hb => rw [Memory.read_writeBytes, if_pos hb]
  next => rfl

/-- A sink that reads as a byte sequence from address 0 on is as long as the sequence (20_memory.md R65). -/
theorem Memory.fileLength_of_read {m : Memory} (hm : m.Pairwise fun p q => p.1 < q.1) {bs : List Byte}
    (h : ∀ b, m.read b = bs[b]?) : m.fileLength = bs.length := by
  apply le_antisymm
  · by_cases hempty : m = []
    · subst hempty
      exact Nat.zero_le _
    · obtain ⟨v, hv⟩ := Memory.read_last m hm hempty
      rw [h] at hv
      obtain ⟨hlast, -⟩ := List.getElem?_eq_some_iff.mp hv
      omega
  · have hpast := Memory.read_past_fileLength m m.fileLength le_rfl
    rw [h] at hpast
    exact List.getElem?_eq_none_iff.mp hpast

/-! ## Where rows stand -/

/-- An image row lies inside the pixel region (41_encode.md R127). -/
theorem rowAddress_bounds (s : State) {y : Nat} (hy : y < s.height.toNat) :
    s.pixoff.toNat ≤ rowAddress s y ∧
    rowAddress s y + s.padlen.toNat ≤ s.pixoff.toNat + s.padlen.toNat * s.height.toNat := by
  have hend := diskRow_end s.padlen.toNat hy
  unfold rowAddress
  omega

/-- A command leaves the sink's bytes or, as `ENC` in `OPEN` with an index of the image, writes at its row's place no more than
a row (20_memory.md R51). -/
theorem Effect.sink_eq_or_row {s t : State} {i : Instr} (he : Effect s i t) :
    t.sink = s.sink ∨ ∃ y bs, y < s.height.toNat ∧ bs.length ≤ s.padlen.toNat ∧
      t.sink = s.sink.writeBytes (rowAddress s y) bs := by
  have hprefix : ∀ payload n, ((diskBytes s payload).take n).length ≤ s.padlen.toNat := fun payload n =>
    (List.length_take_le' n _).trans (diskBytes_length s payload).le
  cases he with
  | rowWritten row payload h hr | rowShort row payload h hr => exact .inr ⟨row.toNat, _, hr, hprefix payload _, rfl⟩
  | notAdmitted | badChannels | tooLarge | badLength | registerRead | releasedBefore | widthSet | heightSet | channelsSet
  | bound | rowRejected | released => exact .inl rfl

theorem Effect.read_outside_pixelRegion {s t : State} {i : Instr} (he : Effect s i t) {b : Nat}
    (hb : b < s.pixoff.toNat ∨ s.pixoff.toNat + s.padlen.toNat * s.height.toNat ≤ b) : t.sink.read b = s.sink.read b := by
  obtain hsink | ⟨y, bs, hy, hlen, hsink⟩ := he.sink_eq_or_row
  · rw [hsink]
  · have hrow := rowAddress_bounds s hy
    rw [hsink]
    exact Memory.read_writeBytes_outside (by omega)

/-! ## A row answered `OK` -/

/-- The last response was `OK` exactly when its error is. -/
theorem lastWasOk_iff {t : State} {l : List Word64} {e : ErrorKind} {v : BitVec 56}
    (h : t.responses = l ++ [responseWord e v]) : lastWasOk t = true ↔ e = .ok := by
  simp only [lastWasOk, h, List.getLast?_concat, errOf_responseWord]
  cases e <;> decide

theorem not_lastWasOk_answer {e : ErrorKind} (he : e ≠ .ok) (v : BitVec 56) (s : State) : ¬ lastWasOk (answer e v s) = true :=
  fun h => he ((lastWasOk_iff rfl).mp h)

/-- `ENC` of row `row` from `s` to `t` was answered `OK`: its index is one of the image, and its whole on-disk form was
written (41_encode.md R120 to R129). -/
structure RowEncoded (s : State) (row : Word32) (payload : List Byte) (t : State) : Prop where
  effect : Effect s (.enc row payload) t
  opened : s.st = .opened
  index : row.toNat < s.height.toNat
  samples : payload.length = sampleCount s
  eq : t = answer .ok 0 { afterWrite row payload s with rowcnt := rowcntNext s.rowcnt }
  sink : t.sink = s.sink.writeBytes (rowAddress s row.toNat) (diskBytes s payload)

/-- Where the sink accepts everything offered, it holds the row's whole on-disk form. -/
theorem afterWrite_sink_of_full {s : State} (hn : acceptedCount s.padlen.toNat s = s.padlen.toNat) (row : Word32)
    (payload : List Byte) :
    (afterWrite row payload s).sink = s.sink.writeBytes (rowAddress s row.toNat) (diskBytes s payload) := by
  have htake : (diskBytes s payload).take (acceptedCount s.padlen.toNat s) = diskBytes s payload := by
    rw [hn]
    exact List.take_of_length_le (diskBytes_length s payload).le
  simp only [afterWrite, htake]

theorem Effect.rowEncoded_of_ok {s t : State} {row : Word32} {payload : List Byte} (he : Effect s (.enc row payload) t)
    (hok : lastWasOk t = true) : RowEncoded s row payload t := by
  have he' := he
  cases he with
  | notAdmitted | badLength | rowRejected | rowShort => exact absurd hok (not_lastWasOk_answer (by decide) _ _)
  | rowWritten _ _ h hr hl hn => exact ⟨he', h, hr, hl, rfl, afterWrite_sink_of_full hn row payload⟩

/-- An admitted `ENC` of an image row with a payload of the right length is answered `OK` if the sink takes all of it. -/
theorem Effect.rowEncoded_of_full {s t : State} {row : Word32} {payload : List Byte} (he : Effect s (.enc row payload) t)
    (hst : s.st = .opened) (hr : row.toNat < s.height.toNat) (hl : payload.length = sampleCount s)
    (hfull : FullWrite s.padlen.toNat s) : RowEncoded s row payload t := by
  apply he.rowEncoded_of_ok
  have hn := acceptedCount_full hfull
  cases he with
  | notAdmitted _ h => simp [admits, hst] at h
  | badLength _ _ _ _ h => exact absurd hl h
  | rowRejected _ _ _ h => omega
  | rowShort _ _ _ _ _ h => omega
  | rowWritten => exact (lastWasOk_iff rfl).mpr rfl

section
variable {s t : State} {row : Word32} {payload : List Byte} (h : RowEncoded s row payload t)
include h

theorem RowEncoded.st_eq : t.st = .opened := by
  rw [h.eq]
  exact h.opened

theorem RowEncoded.sinkPos_eq : t.sinkPos = rowAddress s row.toNat + acceptedCount s.padlen.toNat s := by
  rw [h.eq]
  rfl

theorem RowEncoded.rowcnt_toNat : t.rowcnt.toNat = min (s.rowcnt.toNat + 1) 4294967295 := by
  rw [h.eq, answer_rowcnt, rowcntNext_toNat]

theorem RowEncoded.sameGeometry : SameGeometry s t := h.effect.sameGeometry (by simp [h.opened])

theorem RowEncoded.sessionInv (hs : SessionInv s) : SessionInv t := h.effect.keeps_sessionInv hs trivial

end

/-! ## What the geometry determines -/

section
variable {s t : State} (h : SameGeometry s t)
include h

theorem SameGeometry.rowAddress_eq (y : Nat) : rowAddress t y = rowAddress s y := by
  obtain ⟨-, hheight, -, hpixoff, hpadlen⟩ := h
  simp only [rowAddress, hheight, hpixoff, hpadlen]

theorem SameGeometry.diskBytes_eq (payload : List Byte) : diskBytes t payload = diskBytes s payload := by
  obtain ⟨hwidth, -, hnchan, -, hpadlen⟩ := h
  simp only [diskBytes, rowBuffer, hwidth, hnchan, hpadlen]

theorem SameGeometry.sampleCount_eq : sampleCount t = sampleCount s := by
  obtain ⟨hwidth, -, hnchan, -, -⟩ := h
  simp only [sampleCount, hwidth, hnchan]

theorem SameGeometry.trans {u : State} (h' : SameGeometry t u) : SameGeometry s u := by
  obtain ⟨hwidth, hheight, hnchan, hpixoff, hpadlen⟩ := h
  obtain ⟨hwidth', hheight', hnchan', hpixoff', hpadlen'⟩ := h'
  exact ⟨hwidth'.trans hwidth, hheight'.trans hheight, hnchan'.trans hnchan, hpixoff'.trans hpixoff, hpadlen'.trans hpadlen⟩

end

end Sys2Proof.Machine
end

section
/-! SUPPORT. The host's sequences: a well-formed command sent is executed, each command gives one response, and a sequence
reported as a success goes on after each of its commands (30_encoding.md section 8). -/

namespace Sys2Proof.Machine

theorem encode_fields (i : Instr) : Laws.EncodedFields.Statement i := by
  cases i with
  | setw imm => exact Laws.EncodedFields.setw imm
  | seth imm => exact Laws.EncodedFields.seth imm
  | setc imm => exact Laws.EncodedFields.setc imm
  | bind => exact Laws.EncodedFields.bind
  | enc row payload => exact Laws.EncodedFields.enc row payload
  | rel => exact Laws.EncodedFields.rel
  | rd reg => exact Laws.EncodedFields.rd reg

theorem decodeRegister_index (r : Reg) : decodeRegister (BitVec.ofNat 32 r.index) = .ok (.rd r) := by cases r <;> rfl

/-- A well-formed command decodes back from its encoding (30_encoding.md R83). -/
theorem decode_encode {i : Instr} (hi : i.WellFormed) : decode (encode i) = .ok i := by
  obtain ⟨hop, hrsv, himm, hpayload⟩ := encode_fields i
  cases i with
  | setw imm | seth imm =>
    simp only [decode, hop, Instr.opcode]
    exact decodeFormatI_eq_ok.mpr ⟨hrsv, hpayload, by rw [himm]; exact decodeDimension_eq_ok.mpr ⟨hi, rfl⟩⟩
  | setc imm =>
    simp only [decode, hop, Instr.opcode]
    exact decodeFormatI_eq_ok.mpr ⟨hrsv, hpayload, by rw [himm]; rfl⟩
  | bind | rel =>
    simp only [decode, hop, Instr.opcode]
    exact decodeFormatZ_eq_ok.mpr ⟨hrsv, hpayload, himm, rfl⟩
  | enc row payload =>
    simp only [decode, hop, Instr.opcode]
    exact decodeFormatP_eq_ok.mpr ⟨hrsv, by rw [himm, hpayload]; rfl⟩
  | rd r =>
    simp only [decode, hop, Instr.opcode]
    exact decodeFormatI_eq_ok.mpr ⟨hrsv, hpayload, by rw [himm]; exact decodeRegister_index r⟩

/-- Sending a well-formed command is executing it: the host's list is as before. -/
theorem sendCommand_eq_exec {i : Instr} (hi : i.WellFormed) (s : State) : sendCommand i s = exec i s :=
  step_legal rfl (decode_encode hi)

/-! ## Responses -/

/-- Every command gives one response (30_encoding.md R87). -/
theorem Effect.responses_eq {s t : State} {i : Instr} (he : Effect s i t) :
    ∃ e v, t.responses = s.responses ++ [responseWord e v] := by
  cases he <;> exact ⟨_, _, rfl⟩

theorem sendCommand_responses {i : Instr} {s t : State} (h : sendCommand i s = .next t) :
    ∃ e v, t.responses = s.responses ++ [responseWord e v] := by
  obtain ⟨hb, -⟩ | ⟨tr, rest, e, -, -, rfl⟩ | ⟨tr, rest, j, -, -, he⟩ := step_cases h
  · cases hb
  · exact ⟨_, _, rfl⟩
  · exact he.responses_eq

/-- Every way a sequence of one more command can end: with the failure of the first command, or after the rest. -/
theorem runCommands_cons {i : Instr} {is : List Instr} {s t : State} (h : runCommands (i :: is) s = .next t) :
    ∃ u, sendCommand i s = .next u ∧
      ((lastWasOk u = true ∧ runCommands is u = .next t) ∨ (¬ lastWasOk u = true ∧ t = u)) := by
  unfold runCommands at h
  cases hu : sendCommand i s with
  | next u =>
    simp only [hu] at h
    refine ⟨u, rfl, ?_⟩
    split at h
    next hok => exact .inl ⟨hok, h⟩
    next hok =>
      injection h with h
      exact .inr ⟨hok, h.symm⟩
  | fault f => simp only [hu, reduceCtorEq] at h
  | refused r => simp only [hu, reduceCtorEq] at h

theorem runCommands_responses {is : List Instr} {s t : State} (h : runCommands is s = .next t) :
    ∃ rs, t.responses = s.responses ++ rs := by
  induction is generalizing s with
  | nil =>
    injection h with h
    exact ⟨[], by rw [h, List.append_nil]⟩
  | cons i is ih =>
    obtain ⟨u, hu, ⟨-, h⟩ | ⟨-, rfl⟩⟩ := runCommands_cons h
    · obtain ⟨e, v, hfirst⟩ := sendCommand_responses hu
      obtain ⟨rs, hrest⟩ := ih h
      exact ⟨responseWord e v :: rs, by rw [hrest, hfirst, List.append_assoc, List.singleton_append]⟩
    · obtain ⟨e, v, hfirst⟩ := sendCommand_responses hu
      exact ⟨_, hfirst⟩

/-! ## Results -/

theorem firstFailure_ok_cons (v : BitVec 56) (rs : List Word64) : firstFailure (responseWord .ok v :: rs) = firstFailure rs := by
  simp only [firstFailure, errOf_responseWord, errorOfCode_code]

theorem firstFailure_error_cons {e : ErrorKind} (he : e ≠ .ok) (v : BitVec 56) (rs : List Word64) :
    firstFailure (responseWord e v :: rs) = .failed e := by
  simp only [firstFailure, errOf_responseWord, errorOfCode_code]

theorem sessionResult_of_responses {s t : State} {rs : List Word64} (h : t.responses = s.responses ++ rs) :
    sessionResult s t = firstFailure rs := by
  rw [sessionResult, h, List.drop_left]

/-- A sequence reported as a success: its first command was answered `OK`, and so is the rest reported (30_encoding.md R91). -/
theorem runCommands_success_cons {i : Instr} {is : List Instr} {s t : State} (h : runCommands (i :: is) s = .next t)
    (hres : sessionResult s t = .success) :
    ∃ u, sendCommand i s = .next u ∧ lastWasOk u = true ∧ runCommands is u = .next t ∧ sessionResult u t = .success := by
  obtain ⟨u, hu, hcase⟩ := runCommands_cons h
  obtain ⟨e, v, hfirst⟩ := sendCommand_responses hu
  obtain ⟨hok, hrun⟩ | ⟨hfail, rfl⟩ := hcase
  · obtain ⟨rs, hrest⟩ := runCommands_responses hrun
    obtain rfl := (lastWasOk_iff hfirst).mp hok
    have hall : t.responses = s.responses ++ responseWord .ok v :: rs := by
      rw [hrest, hfirst, List.append_assoc, List.singleton_append]
    rw [sessionResult_of_responses hall, firstFailure_ok_cons, ← sessionResult_of_responses hrest] at hres
    exact ⟨u, hu, hok, hrun, hres⟩
  · have he : e ≠ .ok := (lastWasOk_iff hfirst).not.mp hfail
    rw [sessionResult_of_responses hfirst, firstFailure_error_cons he] at hres
    cases hres

end Sys2Proof.Machine
end

section
/-! SUPPORT. A sequence of rows answered `OK` in any order: each row's place holds what was last sent for it, and the rest of
the sink is as it was; and the complete file, address by address (20_memory.md R51 to R56, R65). -/

namespace Sys2Proof.Machine

/-! ## Rows of the image do not overlap -/

/-- The places of two rows of the image are disjoint (20_memory.md R56). -/
theorem rowAddress_disjoint (s : State) {y z : Nat} (hy : y < s.height.toNat) (hz : z < s.height.toNat) (hne : y ≠ z) :
    rowAddress s y + s.padlen.toNat ≤ rowAddress s z ∨ rowAddress s z + s.padlen.toNat ≤ rowAddress s y := by
  have hstep : ∀ {r q : Nat}, r < q → r * s.padlen.toNat + s.padlen.toNat ≤ q * s.padlen.toNat := fun {r q} hrq => by
    rw [← Nat.succ_mul]
    exact Nat.mul_le_mul_right _ hrq
  unfold rowAddress diskRow
  obtain hlt | hgt := Nat.lt_or_gt_of_ne hne
  · have := hstep (show s.height.toNat - 1 - z < s.height.toNat - 1 - y by omega)
    omega
  · have := hstep (show s.height.toNat - 1 - y < s.height.toNat - 1 - z by omega)
    omega

/-- Every address of the pixel region is in a row of the image. -/
theorem exists_row_of_address {s : State} {b : Nat} (hlow : s.pixoff.toNat ≤ b)
    (hhigh : b < s.pixoff.toNat + s.padlen.toNat * s.height.toNat) :
    ∃ y i, y < s.height.toNat ∧ i < s.padlen.toNat ∧ b = rowAddress s y + i := by
  have hdiv : (b - s.pixoff.toNat) / s.padlen.toNat < s.height.toNat := Nat.div_lt_of_lt_mul (by omega)
  have hpos : 0 < s.padlen.toNat := Nat.pos_of_ne_zero fun h0 => by simp only [h0, Nat.zero_mul] at hhigh; omega
  have hsplit := Nat.div_add_mod (b - s.pixoff.toNat) s.padlen.toNat
  have hmod := Nat.mod_lt (b - s.pixoff.toNat) hpos
  generalize (b - s.pixoff.toNat) / s.padlen.toNat = r at hdiv hsplit
  have hrow : diskRow s.height.toNat (s.height.toNat - 1 - r) = r := by unfold diskRow; omega
  refine ⟨s.height.toNat - 1 - r, _, by omega, hmod, ?_⟩
  rw [rowAddress, hrow, Nat.mul_comm]
  omega

/-! ## A sequence of rows -/

/-- `ENC` commands for the rows given, in order, from `s` to `t`, each answered `OK`. -/
inductive RowsEncoded : State → List (Word32 × List Byte) → State → Prop where
  | nil (s : State) : RowsEncoded s [] s
  | cons {s u t : State} {r : Word32 × List Byte} {rows : List (Word32 × List Byte)} (hfirst : RowEncoded s r.1 r.2 u)
      (hrest : RowsEncoded u rows t) : RowsEncoded s (r :: rows) t

/-- A sequence of `ENC` commands reported as a success is one of rows answered `OK`. -/
theorem rowsEncoded_of_success {rows : List (Word32 × List Byte)} {s t : State}
    (h : runCommands (encCommands rows) s = .next t) (hres : sessionResult s t = .success) : RowsEncoded s rows t := by
  induction rows generalizing s with
  | nil =>
    injection h with h
    rw [← h]
    exact .nil s
  | cons r rows ih =>
    obtain ⟨u, hu, hok, hrun, hres⟩ := runCommands_success_cons h hres
    rw [sendCommand_eq_exec trivial] at hu
    exact .cons ((exec_effect hu).rowEncoded_of_ok hok) (ih hrun hres)

section
variable {s t : State} {rows : List (Word32 × List Byte)} (h : RowsEncoded s rows t)
include h

theorem RowsEncoded.sameGeometry : SameGeometry s t := by
  induction h with
  | nil s => exact ⟨rfl, rfl, rfl, rfl, rfl⟩
  | cons hfirst _ ih => exact hfirst.sameGeometry.trans ih

theorem RowsEncoded.sessionInv (hs : SessionInv s) : SessionInv t := by
  induction h with
  | nil s => exact hs
  | cons hfirst _ ih => exact ih (hfirst.sessionInv hs)

theorem RowsEncoded.st_eq (hst : s.st = .opened) : t.st = .opened := by
  induction h with
  | nil s => exact hst
  | cons hfirst _ ih => exact ih hfirst.st_eq

theorem RowsEncoded.read_outside_pixelRegion {b : Nat}
    (hb : b < s.pixoff.toNat ∨ s.pixoff.toNat + s.padlen.toNat * s.height.toNat ≤ b) : t.sink.read b = s.sink.read b := by
  induction h with
  | nil s => rfl
  | cons hfirst _ ih =>
    obtain ⟨-, hheight, -, hpixoff, hpadlen⟩ := hfirst.sameGeometry
    rw [ih (by rw [hheight, hpixoff, hpadlen]; exact hb), hfirst.effect.read_outside_pixelRegion hb]

end

theorem lastSent_cons_eq_none {r : Word32 × List Byte} {rows : List (Word32 × List Byte)} {y : Nat} :
    lastSent (r :: rows) y = none ↔ lastSent rows y = none ∧ r.1.toNat ≠ y := by
  rw [lastSent]
  cases lastSent rows y <;> simp

theorem lastSent_cons_eq_some {r : Word32 × List Byte} {rows : List (Word32 × List Byte)} {y : Nat} {p : List Byte} :
    lastSent (r :: rows) y = some p ↔
      lastSent rows y = some p ∨ (lastSent rows y = none ∧ r.1.toNat = y ∧ r.2 = p) := by
  rw [lastSent]
  cases lastSent rows y <;> simp

/-- A row of the image for which nothing is sent keeps its bytes. -/
theorem RowsEncoded.read_row_kept {s t : State} {rows : List (Word32 × List Byte)} (h : RowsEncoded s rows t) {y i : Nat}
    (hy : y < s.height.toNat) (hi : i < s.padlen.toNat) (hnone : lastSent rows y = none) :
    t.sink.read (rowAddress s y + i) = s.sink.read (rowAddress s y + i) := by
  induction h with
  | nil s => rfl
  | cons hfirst _ ih =>
    obtain ⟨hnone, hne⟩ := lastSent_cons_eq_none.mp hnone
    obtain ⟨-, hheight, -, -, hpadlen⟩ := hfirst.sameGeometry
    have hrest := ih (by rw [hheight]; exact hy) (by rw [hpadlen]; exact hi) hnone
    have hdisjoint := rowAddress_disjoint _ hfirst.index hy hne
    rw [hfirst.sameGeometry.rowAddress_eq] at hrest
    rw [hrest, hfirst.sink, Memory.read_writeBytes_outside (by rw [diskBytes_length]; omega)]

/-- Each row stands at its place as its last payload gives it, whatever the order (41_encode.md R133). -/
theorem RowsEncoded.rowWritten {s t : State} {rows : List (Word32 × List Byte)} (h : RowsEncoded s rows t) {y : Nat}
    {p : List Byte} (hsome : lastSent rows y = some p) : RowWritten t y p := by
  induction h with
  | nil s => cases hsome
  | cons hfirst hrest ih =>
    obtain hlater | ⟨hnone, rfl, rfl⟩ := lastSent_cons_eq_some.mp hsome
    · exact ih hlater
    · have hgeo := hfirst.sameGeometry
      obtain ⟨-, hheight, -, -, hpadlen⟩ := hfirst.sameGeometry
      intro i hi
      rw [hrest.sameGeometry.rowAddress_eq, hrest.sameGeometry.diskBytes_eq, hgeo.diskBytes_eq]
      rw [hrest.sameGeometry.diskBytes_eq, diskBytes_length] at hi
      rw [hrest.read_row_kept (by rw [hheight]; exact hfirst.index) hi hnone, hgeo.rowAddress_eq, hfirst.sink,
        Memory.read_writeBytes_inside (by rw [diskBytes_length, ← hpadlen]; exact hi)]

/-! ## The complete file -/

/-- Byte `i` of part `r` of a list of parts of `n` bytes each. -/
theorem getElem?_flatten_of_length {parts : List (List Byte)} {n r i : Nat} (hn : ∀ part ∈ parts, part.length = n)
    (hi : i < n) : parts.flatten[r * n + i]? = parts[r]?.bind fun part => part[i]? := by
  induction parts generalizing r with
  | nil => rfl
  | cons part parts ih =>
    obtain ⟨hpart, hparts⟩ := List.forall_mem_cons.mp hn
    cases r with
    | zero => simp [List.getElem?_append_left (show i < part.length by omega)]
    | succ r =>
      have hle : part.length ≤ (r + 1) * n + i := by rw [hpart, Nat.succ_mul]; omega
      have hsub : (r + 1) * n + i - part.length = r * n + i := by rw [hpart, Nat.succ_mul]; omega
      rw [List.flatten_cons, List.getElem?_append_right hle, hsub, ih hparts, List.getElem?_cons_succ]

theorem pictureFile_rows_length (s : State) (picture : List (List Byte)) :
    (picture.reverse.map (diskBytes s)).flatten.length = picture.length * s.padlen.toNat := by
  simp [List.length_flatten, Function.comp_def]

section
variable {s : State} (hs : SessionInv s) (hst : s.st = .opened) (res : Resolution)
include hs hst

/-- The headers end where the pixel region starts (20_memory.md R51). -/
theorem sessionHeaders_length : (sessionHeaders s res).length = s.pixoff.toNat := by
  obtain ⟨-, hpixoff, -⟩ := hs.bound (by simp [hst])
  rw [sessionHeaders, headerRegion_length, hpixoff]

theorem fileSize_eq_projectedSize : fileSize s = projectedSize s.width.toNat s.height.toNat s.nchan.toNat := by
  obtain ⟨-, hpixoff, hpadlen⟩ := hs.bound (by simp [hst])
  rw [fileSize, projectedSize, hpixoff, hpadlen, Nat.add_comm]

/-- The header's size field holds the file's size (20_memory.md R52). -/
theorem leValue_sessionHeaders_size : leValue (((sessionHeaders s res).drop 2).take 4) = fileSize s := by
  have hfits : fileSize s < 2 ^ 32 := hs.fits (by simp [hst])
  rw [fileSize_eq_projectedSize hs hst] at hfits ⊢
  exact leValue_headerRegion_size res hfits

variable {picture : List (List Byte)} (hpicture : picture.length = s.height.toNat)
include hpicture

theorem pictureFile_length : (pictureFile s res picture).length = fileSize s := by
  rw [pictureFile, List.length_append, sessionHeaders_length hs hst, pictureFile_rows_length, hpicture, fileSize, Nat.mul_comm]

/-- The complete file holds picture row `y` at its place: the rows stand bottom-up behind the headers (20_memory.md R55). -/
theorem pictureFile_row {y i : Nat} (hy : y < s.height.toNat) (hi : i < s.padlen.toNat) :
    (pictureFile s res picture)[rowAddress s y + i]? = picture[y]?.bind fun p => (diskBytes s p)[i]? := by
  have hheaders := sessionHeaders_length hs hst res
  have hlengths : ∀ part ∈ picture.reverse.map (diskBytes s), part.length = s.padlen.toNat := by simp
  have hdisk : diskRow s.height.toNat y < picture.length := by unfold diskRow; omega
  have hback : picture.length - 1 - diskRow s.height.toNat y = y := by unfold diskRow; omega
  have hsub : rowAddress s y + i - (sessionHeaders s res).length = diskRow s.height.toNat y * s.padlen.toNat + i := by
    rw [hheaders, rowAddress]
    omega
  rw [pictureFile, List.getElem?_append_right (by rw [hheaders, rowAddress]; omega), hsub,
    getElem?_flatten_of_length hlengths hi, List.getElem?_map, List.getElem?_reverse hdisk, hback, Option.bind_map]
  rfl

/-- A sink whose bytes outside the pixel region are the headers, and whose rows are the picture's, is the complete file. -/
theorem read_eq_pictureFile (hout : ∀ b, (b < s.pixoff.toNat ∨ s.pixoff.toNat + s.padlen.toNat * s.height.toNat ≤ b) →
      s.sink.read b = (sessionHeaders s res)[b]?)
    (hrows : ∀ y p, picture[y]? = some p → RowWritten s y p) (b : Nat) :
    s.sink.read b = (pictureFile s res picture)[b]? := by
  have hheaders := sessionHeaders_length hs hst res
  by_cases hlow : b < s.pixoff.toNat
  · rw [hout b (.inl hlow), pictureFile, List.getElem?_append_left (by omega)]
  by_cases hhigh : s.pixoff.toNat + s.padlen.toNat * s.height.toNat ≤ b
  · have hlen : (pictureFile s res picture).length ≤ b := by rwa [pictureFile_length hs hst res hpicture]
    rw [hout b (.inr hhigh), List.getElem?_eq_none (by omega), List.getElem?_eq_none hlen]
  · obtain ⟨y, i, hy, hi, rfl⟩ := exists_row_of_address (not_lt.mp hlow) (not_le.mp hhigh)
    have hp : picture[y]? = some picture[y] := List.getElem?_eq_getElem (by omega)
    rw [pictureFile_row hs hst res hpicture hy hi, hrows y _ hp i (by rw [diskBytes_length]; exact hi), hp]
    rfl

end

/-- Releasing from `OPEN` under the invariant ends the run cleanly, with one release and the sink's bytes as they are
(42_session.md R140, 70_reset_and_hazards.md R197). -/
theorem SessionInv.release_is_clean {s : State} (hs : SessionInv s) (hst : s.st = .opened) :
    ∃ u, sendCommand .rel s = .next u ∧ Clean u ∧ u.sink = s.sink ∧ u.releases = 1 := by
  obtain ⟨-, hfault, hreleases⟩ := hs.opened hst
  refine ⟨_, (sendCommand_eq_exec trivial s).trans (exec_rel_opened hst), ⟨.inl rfl, hfault⟩, rfl, ?_⟩
  simp [hreleases]

end Sys2Proof.Machine
end

section
/-! CERTIFICATE. The statements about the sink (20_memory.md). -/

namespace Sys2Proof.Certificates

open Sys2Proof Sys2Proof.Machine

/-- Settles O37: a step is the same computation on the registers and the operands, whatever sink it finds. -/
theorem noBehaviourDependsOnTheSink : Obligations.NoBehaviourDependsOnTheSink := by
  unfold Obligations.NoBehaviourDependsOnTheSink
  intro s t hst
  have halike : AlikeOffSink s t (step s) (step t) := by
    rw [hst.eq_onSink]
    exact alikeOffSink_step s.sink s.sinkPos t
  generalize step s = o, step t = o' at halike
  cases halike with
  | next ha he => exact ⟨ha, he⟩
  | fault f => rfl

/-- Settles O48: each field stands at the sum of the sizes before it, and the palette behind the two headers. -/
theorem headerBytesHoldTheGeometry : Obligations.HeaderBytesHoldTheGeometry := by
  unfold Obligations.HeaderBytesHoldTheGeometry
  intro w h c res hc hw hh hf
  have hdepth : 8 * c < 256 ^ 2 := by rcases hc with rfl | rfl | rfl <;> decide
  refine ⟨headerRegion_length w h c res, rfl, leValue_headerRegion_size res hf, ?_, ?_, ?_, ?_, ?_, ?_⟩
  · exact leValue_headerField (k := 4) res rfl (pixelOffset_lt c)
  · exact leValue_headerField (k := 5) res rfl (by decide)
  · exact leValue_headerField (k := 6) res rfl (by omega)
  · exact leValue_headerField (k := 7) res rfl (by omega)
  · exact leValue_headerField (k := 9) res rfl hdepth
  · rintro rfl i hi
    rw [headerRegion_palette, palette, if_pos rfl, Config.paletteEntries_eq, paletteFrom_entry 0 hi, Nat.zero_add]

/-- Settles O35: the seek and the write by what they answer; the sink's listed answer `n` is the count accepted. -/
theorem sinkPrimitives : Obligations.SinkPrimitives := by
  unfold Obligations.SinkPrimitives
  refine ⟨fun a s ha => sinkSeek_eq_ok.mpr ⟨ha, rfl⟩, fun bs s _ hend => ?_, fun bs s n hend hn => ?_⟩
  · have hacc := acceptedCount_le bs.length s
    have hlen : (bs.take (acceptedCount bs.length s)).length = acceptedCount bs.length s := List.length_take_of_le hacc
    refine ⟨_, _, sinkWrite_eq_ok.mpr ⟨by rw [Config.sinkSize_eq]; omega, rfl, rfl⟩, hacc, by omega, rfl, ?_, ?_, rfl⟩
    · intro i hi
      rw [Memory.read_writeBytes_inside (by omega), List.getElem?_take_of_lt hi]
    · intro b hb
      exact Memory.read_writeBytes_outside (by omega)
  · have hacc : acceptedCount bs.length { s with sinkAnswers := n :: s.sinkAnswers } = n := Nat.min_eq_left hn
    have hfits : s.sinkPos + n ≤ Config.sinkSize := (Nat.add_le_add_left hn _).trans hend
    exact ⟨_, sinkWrite_eq_ok.mpr ⟨by rw [hacc]; exact hfits, hacc.symm, rfl⟩⟩

/-- Settles O36: the only write of a step is at the place of a row of the image. -/
theorem theBlockWritesOnlyThePixelRegion : Obligations.TheBlockWritesOnlyThePixelRegion := by
  unfold Obligations.TheBlockWritesOnlyThePixelRegion
  intro s t b _ h hb
  obtain ⟨-, rfl⟩ | ⟨tr, rest, e, -, -, rfl⟩ | ⟨tr, rest, i, -, -, he⟩ := step_cases h
  · rfl
  · rfl
  · exact he.read_outside_pixelRegion hb

/-- Settles O34: the first execution leaves the geometry, so the second writes the same bytes at the same address. -/
theorem repeatedEncLeavesTheSameBytes : Obligations.RepeatedEncLeavesTheSameBytes := by
  unfold Obligations.RepeatedEncLeavesTheSameBytes
  intro s t u row p hs hst hfull ht hok hfull' hu
  have first : RowEncoded s row p t := (exec_effect ht).rowEncoded_of_ok ((lastWasOk_iff (e := .ok) (v := 0) hok).mpr rfl)
  have hgeo := first.sameGeometry
  obtain ⟨-, hheight, -, -, hpadlen⟩ := first.sameGeometry
  have second : RowEncoded t row p u := (exec_effect hu).rowEncoded_of_full first.st_eq (by rw [hheight]; exact first.index)
    (by rw [hgeo.sampleCount_eq]; exact first.samples) hfull'
  refine ⟨?_, ?_, ?_⟩
  · rw [second.sink, hgeo.rowAddress_eq, hgeo.diskBytes_eq, first.sink, Memory.writeBytes_again hs.sinkWf.1]
  · rw [second.sinkPos_eq, first.sinkPos_eq, hgeo.rowAddress_eq, acceptedCount_full hfull', acceptedCount_full hfull, hpadlen]
  · rw [second.rowcnt_toNat, first.rowcnt_toNat]
    omega

/-- Settles O50: the rows' places hold the picture and the rest of the sink is as the headers left it. -/
theorem everyRowWrittenGivesTheCompleteFile : Obligations.EveryRowWrittenGivesTheCompleteFile := by
  unfold Obligations.EveryRowWrittenGivesTheCompleteFile
  intro s t res picture rows hs hst hheaders hpicture hrows hrun hres
  have hdone := rowsEncoded_of_success hrun hres
  have ht := hdone.sessionInv hs
  have htst := hdone.st_eq hst
  obtain ⟨hwidth, hheight, hnchan, hpixoff, hpadlen⟩ := hdone.sameGeometry
  have hpicture' : picture.length = t.height.toNat := by rw [hpicture, hheight]
  have hfile : ∀ b, t.sink.read b = (pictureFile t res picture)[b]? := by
    refine read_eq_pictureFile ht htst res hpicture' (fun b hb => ?_) (fun y p hp => ?_)
    · rw [hpixoff, hpadlen, hheight] at hb
      rw [hdone.read_outside_pixelRegion hb, hheaders, sessionHeaders, sessionHeaders, hwidth, hheight, hnchan]
    · obtain ⟨hy, -⟩ := List.getElem?_eq_some_iff.mp hp
      exact hdone.rowWritten ((hrows y (by omega)).trans hp)
  have hlength := pictureFile_length ht htst res hpicture'
  exact ⟨hfile, (Memory.fileLength_of_read ht.sinkWf.1 hfile).trans hlength, hlength.symm,
    fileSize_eq_projectedSize ht htst, leValue_sessionHeaders_size ht htst res, ht.release_is_clean htst⟩

end Sys2Proof.Certificates
end

section
/-! SUPPORT. The decoder and the encoder are inverse to each other, field by field, and over the byte-wide transport
(30_encoding.md R81 to R85). -/

namespace Sys2Proof

theorem decodeFrame_frameOf (t : Transaction) : decodeFrame (frameOf t) = decode t := by
  unfold decodeFrame
  rw [transactionOfFrame_frameOf]

/-- A transaction is the encoding of the command whose fields it has. -/
theorem encode_eq_of_fields {t : Transaction} {i : Instr} (hop : opOf t.word = i.opcode) (hrsv : rsvOf t.word = 0)
    (himm : immOf t.word = i.immediate) (hpayload : t.payload = i.payload) : encode i = t := by
  unfold encode
  rw [← hop, ← hrsv, ← himm, ← hpayload, joinWord_fields]

/-- The register an immediate names encodes back to it. -/
theorem eq_immediate_of_regOfIndex {imm : Word32} {r : Reg} (h : regOfIndex imm.toNat = some r) :
    imm = (Instr.rd r).immediate :=
  BitVec.eq_of_toNat_eq (by simp [Instr.immediate, index_of_regOfIndex h])

/-- What the decoder accepts is the encoding of the command it gives. -/
theorem encode_of_decode {t : Transaction} {i : Instr} (h : decode t = .ok i) : encode i = t := by
  unfold decode at h
  split at h
  case h_1 hop | h_2 hop =>
    obtain ⟨hrsv, hpayload, h⟩ := decodeFormatI_eq_ok.mp h
    obtain ⟨-, rfl⟩ := decodeDimension_eq_ok.mp h
    exact encode_eq_of_fields (BitVec.eq_of_toNat_eq hop) hrsv rfl hpayload
  case h_3 hop =>
    obtain ⟨hrsv, hpayload, h⟩ := decodeFormatI_eq_ok.mp h
    cases h
    exact encode_eq_of_fields (BitVec.eq_of_toNat_eq hop) hrsv rfl hpayload
  case h_4 hop | h_6 hop =>
    obtain ⟨hrsv, hpayload, himm, rfl⟩ := decodeFormatZ_eq_ok.mp h
    exact encode_eq_of_fields (BitVec.eq_of_toNat_eq hop) hrsv himm hpayload
  case h_5 hop =>
    obtain ⟨hrsv, h⟩ := decodeFormatP_eq_ok.mp h
    cases h
    exact encode_eq_of_fields (BitVec.eq_of_toNat_eq hop) hrsv rfl rfl
  case h_7 hop =>
    obtain ⟨hrsv, hpayload, h⟩ := decodeFormatI_eq_ok.mp h
    obtain ⟨r, hr, rfl⟩ := decodeRegister_eq_ok.mp h
    exact encode_eq_of_fields (BitVec.eq_of_toNat_eq hop) hrsv (eq_immediate_of_regOfIndex hr) hpayload
  case h_8 => cases h

theorem decode_eq_ok_iff {t : Transaction} {i : Instr} : decode t = .ok i ↔ i.WellFormed ∧ encode i = t := by
  constructor
  · intro h
    exact ⟨wellFormed_of_decode h, encode_of_decode h⟩
  · rintro ⟨hi, rfl⟩
    exact Machine.decode_encode hi

theorem decode_error_iff {t : Transaction} : (∃ e, decode t = .error e) ↔ ∀ i, decode t ≠ .ok i := by
  cases decode t <;> simp

/-- What the decoder reads from a table row's bytes it reads from the row's transaction (log 14). -/
theorem decode_tableTransaction {nbits w : Nat} {i : Instr} (h : decodeTableWord nbits w = some i) :
    decode (tableTransaction nbits w) = .ok i := by
  have hlength : ¬ (tableFrame nbits w).length < 8 := by simp [tableFrame]
  have hframe : transactionOfFrame (tableFrame nbits w) = some (tableTransaction nbits w) := if_neg hlength
  rw [decodeTableWord, decodeFrame, hframe] at h
  split at h
  next j hj =>
    cases h
    exact hj
  next => cases h

/-! ## The opcode table (30_encoding.md R83) -/

/-- The table's row for an opcode whose `IMM` may use its low `k` bits. -/
def freeRow (mnemonic : String) (op : BitVec 8) (k : Nat) (takesPayload : Bool) : OpcodeRow :=
  { mnemonic
    pattern := joinWord op 0 0
    mask := joinWord (BitVec.allOnes 8) (BitVec.allOnes 24) (BitVec.allOnes 32 <<< k)
    takesPayload }

theorem opcodeTable_eq : opcodeTable =
    [freeRow "SETW" 1 31 false, freeRow "SETH" 2 31 false, freeRow "SETC" 3 32 false, freeRow "BIND" 4 0 false,
      freeRow "ENC" 5 32 true, freeRow "REL" 6 0 false, freeRow "RD" 7 3 false] := by decide

/-- No bit of a number is set from `k` on exactly when it is below `2^k`. -/
theorem and_allOnes_shiftLeft_eq_zero {x : Word32} {k : Nat} : x &&& (BitVec.allOnes 32 <<< k) = 0 ↔ x.toNat < 2 ^ k := by
  constructor
  · intro h
    refine Nat.lt_pow_two_of_testBit _ fun i hi => ?_
    by_cases hlt : i < 32
    · have hk : i - k < 32 := by omega
      have hbit : (x &&& (BitVec.allOnes 32 <<< k)).getLsbD i = false := by rw [h]; exact BitVec.getLsbD_zero
      show x.getLsbD i = false
      simpa only [BitVec.getLsbD_and, BitVec.getLsbD_shiftLeft, BitVec.getLsbD_allOnes, hlt, hi.not_gt, hk, decide_true,
        decide_false, Bool.not_false, Bool.and_true] using hbit
    · exact BitVec.getLsbD_of_ge x i (by omega)
  · intro h
    refine BitVec.eq_of_getLsbD_eq fun i hi => ?_
    by_cases hk : k ≤ i
    · have hbit : x.getLsbD i = false := Nat.testBit_lt_two_pow (h.trans_le (Nat.pow_le_pow_right (by decide) hk))
      simp [hbit]
    · simp [hk]

theorem freeRow_spells_iff {mnemonic : String} {op : BitVec 8} {k : Nat} {takesPayload : Bool} {w : Word64} :
    (freeRow mnemonic op k takesPayload).spells w = true ↔ opOf w = op ∧ rsvOf w = 0 ∧ (immOf w).toNat < 2 ^ k := by
  have hmask : w &&& joinWord (BitVec.allOnes 8) (BitVec.allOnes 24) (BitVec.allOnes 32 <<< k) =
      joinWord (opOf w) (rsvOf w) (immOf w &&& (BitVec.allOnes 32 <<< k)) := by
    conv => lhs; rw [← joinWord_fields w, joinWord_and, BitVec.and_allOnes, BitVec.and_allOnes]
  simp only [OpcodeRow.spells, freeRow, hmask, beq_iff_eq, joinWord_inj, and_allOnes_shiftLeft_eq_zero]

theorem freeRow_mnemonic (mnemonic : String) (op : BitVec 8) (k : Nat) (takesPayload : Bool) :
    (freeRow mnemonic op k takesPayload).mnemonic = mnemonic := rfl

theorem freeRow_takesPayload (mnemonic : String) (op : BitVec 8) (k : Nat) (takesPayload : Bool) :
    (freeRow mnemonic op k takesPayload).takesPayload = takesPayload := rfl

/-- A row of the table, taken apart: its opcode, its free bits and whether it takes a payload. -/
theorem forall_mem_opcodeTable {P : OpcodeRow → Prop} : (∀ r ∈ opcodeTable, P r) ↔
    P (freeRow "SETW" 1 31 false) ∧ P (freeRow "SETH" 2 31 false) ∧ P (freeRow "SETC" 3 32 false) ∧
    P (freeRow "BIND" 4 0 false) ∧ P (freeRow "ENC" 5 32 true) ∧ P (freeRow "REL" 6 0 false) ∧
    P (freeRow "RD" 7 3 false) := by
  simp [opcodeTable_eq]

/-- A command's word, with any payload, matches the row that has the command's mnemonic. -/
theorem exists_row_of_wellFormed {i : Instr} (hi : i.WellFormed) :
    ∃ r ∈ opcodeTable, r.mnemonic = i.mnemonic ∧ r.spells (encode i).word = true := by
  obtain ⟨hop, hrsv, himm, -⟩ := Machine.encode_fields i
  have hrow : ∀ {k b}, freeRow i.mnemonic i.opcode k b ∈ opcodeTable → i.immediate.toNat < 2 ^ k →
      ∃ r ∈ opcodeTable, r.mnemonic = i.mnemonic ∧ r.spells (encode i).word = true := fun hmem hk =>
    ⟨_, hmem, rfl, freeRow_spells_iff.mpr ⟨hop, hrsv, by rwa [himm]⟩⟩
  obtain ⟨hsetw, hseth, hsetc, hbind, henc, hrel, hrd⟩ := forall_mem_opcodeTable.mp fun r (hr : r ∈ opcodeTable) => hr
  cases i with
  | setw imm => exact hrow hsetw hi
  | seth imm => exact hrow hseth hi
  | setc imm => exact hrow hsetc imm.isLt
  | bind => exact hrow hbind (by decide)
  | enc row payload => exact hrow henc row.isLt
  | rel => exact hrow hrel (by decide)
  | rd r => exact hrow hrd (by cases r <;> decide)

/-- A word that matches a row, with a payload the row admits, is the encoding of a command of the row. -/
theorem exists_command_of_row {t : Transaction} : ∀ r ∈ opcodeTable, r.spells t.word = true →
    (r.takesPayload = true ∨ t.payload = []) → ∃ i : Instr, i.WellFormed ∧ encode i = t ∧ i.mnemonic = r.mnemonic := by
  simp only [forall_mem_opcodeTable, freeRow_spells_iff, freeRow_mnemonic, freeRow_takesPayload, Bool.false_eq_true, false_or]
  refine ⟨?_, ?_, ?_, ?_, ?_, ?_, ?_⟩ <;> rintro ⟨hop, hrsv, himm⟩ hpayload
  · exact ⟨.setw (immOf t.word), himm, encode_eq_of_fields hop hrsv rfl hpayload, rfl⟩
  · exact ⟨.seth (immOf t.word), himm, encode_eq_of_fields hop hrsv rfl hpayload, rfl⟩
  · exact ⟨.setc (immOf t.word), trivial, encode_eq_of_fields hop hrsv rfl hpayload, rfl⟩
  · have hzero : immOf t.word = 0 := BitVec.eq_of_toNat_eq (Nat.lt_one_iff.mp himm)
    exact ⟨.bind, trivial, encode_eq_of_fields hop hrsv hzero hpayload, rfl⟩
  · exact ⟨.enc (immOf t.word) t.payload, trivial, encode_eq_of_fields hop hrsv rfl rfl, rfl⟩
  · have hzero : immOf t.word = 0 := BitVec.eq_of_toNat_eq (Nat.lt_one_iff.mp himm)
    exact ⟨.rel, trivial, encode_eq_of_fields hop hrsv hzero hpayload, rfl⟩
  · obtain ⟨r, hr⟩ := Option.ne_none_iff_exists'.mp ((regOfIndex_eq_none _).not.mpr (not_le.mpr himm))
    exact ⟨.rd r, trivial, encode_eq_of_fields hop hrsv (eq_immediate_of_regOfIndex hr) hpayload, rfl⟩

theorem exists_row_of_decode {t : Transaction} {i : Instr} (h : decode t = .ok i) :
    ∃ r ∈ opcodeTable, r.mnemonic = i.mnemonic ∧ r.spells t.word = true := by
  obtain ⟨hi, rfl⟩ := decode_eq_ok_iff.mp h
  exact exists_row_of_wellFormed hi

theorem exists_decode_of_row {t : Transaction} {r : OpcodeRow} (hr : r ∈ opcodeTable) (hspells : r.spells t.word = true)
    (hpayload : r.takesPayload = true ∨ t.payload = []) :
    ∃ i, decode t = .ok i ∧ i.mnemonic = r.mnemonic ∧ i.immediate = immOf t.word := by
  obtain ⟨i, hi, rfl, hmnemonic⟩ := exists_command_of_row r hr hspells hpayload
  obtain ⟨-, -, himm, -⟩ := Machine.encode_fields i
  exact ⟨i, Machine.decode_encode hi, hmnemonic, himm.symm⟩

/-- No two rows have the same mnemonic, and the decoder reads a word with no payload as one command. -/
theorem row_unique {w : Word64} {r q : OpcodeRow} (hr : r ∈ opcodeTable) (hq : q ∈ opcodeTable) (hrw : r.spells w = true)
    (hqw : q.spells w = true) : r = q := by
  obtain ⟨i, hi, hir, -⟩ := exists_decode_of_row (t := ⟨w, []⟩) hr hrw (.inr rfl)
  obtain ⟨j, hj, hjq, -⟩ := exists_decode_of_row (t := ⟨w, []⟩) hq hqw (.inr rfl)
  obtain rfl : i = j := Except.ok.inj (hi.symm.trans hj)
  have hnodup : (opcodeTable.map OpcodeRow.mnemonic).Nodup := by decide
  exact List.inj_on_of_nodup_map hnodup hr hq (hir.symm.trans hjq)

theorem decode_error_of_no_row {t : Transaction} (h : ∀ r ∈ opcodeTable, r.spells t.word = false) :
    ∃ e, decode t = .error e := by
  refine decode_error_iff.mpr fun i hi => ?_
  obtain ⟨r, hr, -, hspells⟩ := exists_row_of_decode hi
  simp [h r hr] at hspells

/-! ## The six cases of 30_encoding.md R85 -/

/-- An accepted transaction meets none of the six cases. -/
theorem not_illegal_of_decode {t : Transaction} {i : Instr} (h : decode t = .ok i) : ¬ Illegal t := by
  obtain ⟨hi, rfl⟩ := decode_eq_ok_iff.mp h
  obtain ⟨hop, hrsv, himm, hpayload⟩ := Machine.encode_fields i
  unfold Illegal
  rw [hop, hrsv, himm, hpayload, getLsbD_31_iff]
  cases i with
  | setw imm | seth imm =>
    have hbit : imm.toNat < 2 ^ 31 := hi
    simpa [Instr.opcode, Instr.immediate, Instr.payload] using hbit
  | setc imm | bind | enc row payload | rel => simp [Instr.opcode, Instr.immediate, Instr.payload]
  | rd r =>
    have hindex : (Instr.rd r).immediate.toNat < 8 := by cases r <;> decide
    simpa [Instr.opcode, Instr.payload] using hindex

/-- A transaction that meets none of the six cases matches a row that admits its payload. -/
theorem exists_row_of_not_illegal {t : Transaction} (h : ¬ Illegal t) :
    ∃ r ∈ opcodeTable, r.spells t.word = true ∧ (r.takesPayload = true ∨ t.payload = []) := by
  simp only [Illegal, not_or, not_and, not_not, getLsbD_31_iff, not_le] at h
  obtain ⟨⟨hne, hlt⟩, hrsv, hzero, hdim, hreg, hpayload⟩ := h
  have hrow : ∀ {m op k b}, freeRow m op k b ∈ opcodeTable → opOf t.word = op → (immOf t.word).toNat < 2 ^ k →
      (b = true ∨ t.payload = []) →
      ∃ r ∈ opcodeTable, r.spells t.word = true ∧ (r.takesPayload = true ∨ t.payload = []) :=
    fun hmem hop himm hb => ⟨_, hmem, freeRow_spells_iff.mpr ⟨hop, hrsv, himm⟩, hb⟩
  have hop : opOf t.word = 1 ∨ opOf t.word = 2 ∨ opOf t.word = 3 ∨ opOf t.word = 4 ∨ opOf t.word = 5 ∨
      opOf t.word = 6 ∨ opOf t.word = 7 := by
    bv_omega
  obtain ⟨hsetw, hseth, hsetc, hbind, henc, hrel, hrd⟩ := forall_mem_opcodeTable.mp fun r (hr : r ∈ opcodeTable) => hr
  obtain hop | hop | hop | hop | hop | hop | hop := hop
  · exact hrow hsetw hop (hdim (.inl hop)) (.inr (hpayload (by simp [hop])))
  · exact hrow hseth hop (hdim (.inr hop)) (.inr (hpayload (by simp [hop])))
  · exact hrow hsetc hop (immOf t.word).isLt (.inr (hpayload (by simp [hop])))
  · exact hrow hbind hop (by simp [hzero (.inl hop)]) (.inr (hpayload (by simp [hop])))
  · exact hrow henc hop (immOf t.word).isLt (.inl rfl)
  · exact hrow hrel hop (by simp [hzero (.inr hop)]) (.inr (hpayload (by simp [hop])))
  · exact hrow hrd hop (hreg hop) (.inr (hpayload (by simp [hop])))

theorem illegal_iff_decode_error {t : Transaction} : Illegal t ↔ ∃ e, decode t = .error e := by
  constructor
  · intro h
    exact decode_error_iff.mpr fun i hi => not_illegal_of_decode hi h
  · intro h
    by_contra hlegal
    obtain ⟨r, hr, hspells, hpayload⟩ := exists_row_of_not_illegal hlegal
    obtain ⟨i, hi, -⟩ := exists_decode_of_row hr hspells hpayload
    exact decode_error_iff.mp h i hi

/-- With no payload only the word counts: it is illegal when it matches no row. -/
theorem illegal_iff_no_row {w : Word64} : Illegal ⟨w, []⟩ ↔ ∀ r ∈ opcodeTable, r.spells w = false := by
  rw [illegal_iff_decode_error]
  refine ⟨fun h r hr => ?_, decode_error_of_no_row (t := ⟨w, []⟩)⟩
  by_contra hspells
  obtain ⟨i, hi, -⟩ := exists_decode_of_row (t := ⟨w, []⟩) hr (Bool.eq_true_of_not_eq_false hspells) (.inr rfl)
  exact decode_error_iff.mp h i hi

end Sys2Proof
end

section
/-! SUPPORT. The bytes of a word on a byte-wide transport (30_encoding.md R81, R87; 20_memory.md R57). -/

namespace Sys2Proof

/-- Byte `i` of a word is its bits from `8 * i` on, least significant byte first. -/
theorem leBytes_toNat (n : Nat) {w : Nat} (x : BitVec w) :
    leBytes n x.toNat = (List.range n).map fun i => x.extractLsb' (8 * i) 8 := by
  have hshift : ∀ v, leBytes n v = (List.range n).map fun i => BitVec.ofNat 8 (v >>> (8 * i)) := by
    induction n with
    | zero => exact fun _ => rfl
    | succ n ih =>
      intro v
      have hbyte : ∀ i, (v / 256) >>> (8 * i) = v >>> (8 * i.succ) := fun i => by
        rw [Nat.mul_succ, Nat.add_comm, Nat.shiftRight_add, Nat.shiftRight_eq_div_pow v 8]
      simp only [leBytes, ih, List.range_succ_eq_map, List.map_cons, List.map_map, hbyte, Function.comp_def,
        Nat.mul_zero, Nat.shiftRight_zero]
  exact hshift x.toNat

theorem leBytes_word64 (x : Word64) :
    leBytes 8 x.toNat =
      [x.extractLsb' 0 8, x.extractLsb' 8 8, x.extractLsb' 16 8, x.extractLsb' 24 8,
        x.extractLsb' 32 8, x.extractLsb' 40 8, x.extractLsb' 48 8, x.extractLsb' 56 8] :=
  leBytes_toNat 8 x

/-- The eight bytes of a command word: `IMM`, `RSV`, `OP`, each least significant byte first. -/
theorem leBytes_joinWord (op : BitVec 8) (rsv : BitVec 24) (imm : Word32) :
    leBytes 8 (joinWord op rsv imm).toNat =
      [imm.extractLsb' 0 8, imm.extractLsb' 8 8, imm.extractLsb' 16 8, imm.extractLsb' 24 8,
        rsv.extractLsb' 0 8, rsv.extractLsb' 8 8, rsv.extractLsb' 16 8, op] := by
  have himm : ∀ a, a + 8 ≤ 32 → (joinWord op rsv imm).extractLsb' a 8 = imm.extractLsb' a 8 := fun _ ha =>
    BitVec.extractLsb'_append_eq_of_add_le ha
  have hrsv : ∀ a b, b = a + 32 → a + 8 ≤ 24 → (joinWord op rsv imm).extractLsb' b 8 = rsv.extractLsb' a 8 := by
    rintro a _ rfl ha
    rw [joinWord, BitVec.extractLsb'_append_eq_of_le (Nat.le_add_left _ _), Nat.add_sub_cancel,
      BitVec.extractLsb'_append_eq_of_add_le ha]
  have hop : (joinWord op rsv imm).extractLsb' 56 8 = op := opOf_joinWord op rsv imm
  rw [leBytes_word64, himm 0 (by decide), himm 8 (by decide), himm 16 (by decide), himm 24 (by decide),
    hrsv 0 32 rfl (by decide), hrsv 8 40 rfl (by decide), hrsv 16 48 rfl (by decide), hop]

end Sys2Proof
end

section
/-! SUPPORT. The one response of a command: its error is one the block can answer with, and its value is a register's for `RD`
and 0 otherwise (30_encoding.md R87, 60_exceptions.md R150). -/

namespace Sys2Proof.Machine

/-- The errors the block answers with: all but the session's own two (60_exceptions.md R151, R154). -/
def ErrorKind.isBlocks (e : ErrorKind) : Bool := e != .unsupportedMode && e != .sinkUnavailable

theorem ErrorKind.code_mem_of_isBlocks {e : ErrorKind} (he : e.isBlocks = true) :
    e.code.toNat ∈ [0, 2, 3, 5, 6, 7, 8] := by
  cases e with
  | unsupportedMode | sinkUnavailable => cases he
  | ok | unsupportedChannelCount | fileTooLarge | rowIndexOutOfRange | shortWrite | badState | illegalCommand => decide

/-- What a command answers, and that it takes nothing off the host's list. -/
theorem Effect.response {s t : State} {i : Instr} (h : Effect s i t) :
    t.inbox = s.inbox ∧ ∃ e v, t.responses = s.responses ++ [responseWord e v] ∧ e.isBlocks = true ∧
      (∀ reg, i = .rd reg → e = .ok ∧ v = readReg reg s) ∧ ((∀ reg, i ≠ .rd reg) → v = 0) := by
  cases h with
  | registerRead r =>
    refine ⟨rfl, _, _, rfl, rfl, ?_, fun hne => absurd rfl (hne r)⟩
    rintro reg ⟨⟩
    exact ⟨rfl, rfl⟩
  | notAdmitted _ hi =>
    refine ⟨rfl, _, _, rfl, rfl, ?_, fun _ => rfl⟩
    rintro reg rfl
    cases hi
  | badChannels | tooLarge | badLength | releasedBefore | widthSet | heightSet | channelsSet | bound | rowRejected
  | rowWritten | rowShort | released => exact ⟨rfl, _, _, rfl, rfl, nofun, fun _ => rfl⟩

theorem readReg_inbox (reg : Reg) (s : State) (rest : List Transaction) :
    readReg reg { s with inbox := rest } = readReg reg s := by cases reg <;> rfl

/-- A step that takes a transaction answers it. -/
theorem step_response {s t : State} {tr : Transaction} {rest : List Transaction} (hb : s.inbox = tr :: rest)
    (h : step s = .next t) :
    t.inbox = rest ∧ ∃ e v, t.responses = s.responses ++ [responseWord e v] ∧ e.isBlocks = true ∧
      (∀ reg, decode tr = .ok (.rd reg) → e = .ok ∧ v = readReg reg s) ∧
      ((∀ reg, decode tr ≠ .ok (.rd reg)) → v = 0) := by
  cases hd : decode tr with
  | error err =>
    rw [step_illegal hb hd] at h
    injection h with h
    subst h
    exact ⟨rfl, _, _, rfl, rfl, nofun, fun _ => rfl⟩
  | ok i =>
    rw [step_legal hb hd] at h
    simpa only [readReg_inbox, Except.ok.injEq, ne_eq] using (exec_effect h).response

/-- A response word is its two fields (30_encoding.md R87). -/
theorem errOf_append_valOf (r : Word64) : (errOf r ++ valOf r : BitVec (8 + 56)) = r := by
  rw [errOf, valOf, BitVec.extractLsb'_append_extractLsb'_eq_extractLsb' (by decide : 56 = 0 + 56)]
  exact BitVec.extractLsb'_eq_self

end Sys2Proof.Machine
end

section
/-! SUPPORT. `CONFIG`: three staged registers and one `BIND` (30_encoding.md R90); and the opening of a session around it
(30_encoding.md R93). -/

namespace Sys2Proof.Machine

/-! ## Sequences -/

theorem runCommands_singleton (i : Instr) (s : State) : runCommands [i] s = sendCommand i s := by
  simp only [runCommands, ite_self]
  cases sendCommand i s <;> rfl

/-- After an `OK` a sequence goes on. -/
theorem runCommands_cons_of_ok {i : Instr} {s t : State} {v : BitVec 56} (h : sendCommand i s = .next (answer .ok v t))
    (is : List Instr) : runCommands (i :: is) s = runCommands is (answer .ok v t) := by
  have hok : lastWasOk (answer .ok v t) = true := (lastWasOk_iff rfl).mpr rfl
  simp only [runCommands, h, if_pos hok]

/-! ## `CONFIG` -/

section
variable {s : State} (hst : s.st = .unopened)
include hst

theorem exec_setw_unopened (w : Word32) : exec (.setw w) s = .next (answer .ok 0 { s with width := w }) := if_pos hst

theorem exec_seth_unopened (h : Word32) : exec (.seth h) s = .next (answer .ok 0 { s with height := h }) := if_pos hst

theorem exec_setc_unopened (c : Word32) : exec (.setc c) s = .next (answer .ok 0 { s with nchan := c }) := if_pos hst

theorem exec_bind_badChannels (hc : ¬ LegalChannels s.nchan.toNat) :
    exec .bind s = .next (answer .unsupportedChannelCount 0 s) := by
  simp only [exec, execBind, hst, ne_eq, not_true, if_false, if_pos hc, raiseError_eq]

theorem exec_bind_bound (hc : LegalChannels s.nchan.toNat)
    (hf : projectedSize s.width.toNat s.height.toNat s.nchan.toNat < Config.maxFile) :
    exec .bind s = .next (answer .ok 0 (boundState s)) := by
  simp only [exec, execBind, hst, ne_eq, not_true, if_false, if_neg (not_not.mpr hc), if_neg (not_le.mpr hf), respond_eq]

end

/-- The state before `BIND` in `CONFIG w, h, c`: three registers staged, three `OK` answers given. -/
def configStaged (w h c : Word32) (s : State) : State :=
  { s with width := w, height := h, nchan := c,
           responses := s.responses ++ [responseWord .ok 0] ++ [responseWord .ok 0] ++ [responseWord .ok 0] }

/-- The registers of `CONFIG` are staged one by one, and `BIND` decides. -/
theorem runCommands_configCommands {w h : Word32} (c : Word32) {s : State} (hst : s.st = .unopened) (hw : w.toNat < 2 ^ 31)
    (hh : h.toNat < 2 ^ 31) : runCommands (configCommands w h c) s = exec .bind (configStaged w h c s) := by
  have hsetw : sendCommand (.setw w) s = _ := (sendCommand_eq_exec hw s).trans (exec_setw_unopened hst w)
  have hseth : sendCommand (.seth h) (answer .ok 0 { s with width := w }) = _ :=
    (sendCommand_eq_exec hh _).trans (exec_seth_unopened (s := answer .ok 0 { s with width := w }) hst h)
  have hsetc : sendCommand (.setc c) (answer .ok 0 { answer .ok 0 { s with width := w } with height := h }) = _ :=
    (sendCommand_eq_exec trivial _).trans
      (exec_setc_unopened (s := answer .ok 0 { answer .ok 0 { s with width := w } with height := h }) hst c)
  rw [configCommands, runCommands_cons_of_ok hsetw, runCommands_cons_of_ok hseth, runCommands_cons_of_ok hsetc,
    runCommands_singleton, sendCommand_eq_exec trivial]
  rfl

/-- What `CONFIG` reports is what `BIND` answers. -/
theorem sessionResult_config (w h c : Word32) {s t : State} {r : Word64}
    (ht : t.responses = (configStaged w h c s).responses ++ [r]) : sessionResult s t = firstFailure [r] := by
  have hresponses : t.responses =
      s.responses ++ [responseWord .ok 0, responseWord .ok 0, responseWord .ok 0, r] := by
    rw [ht]
    simp [configStaged]
  rw [sessionResult_of_responses hresponses, firstFailure_ok_cons, firstFailure_ok_cons, firstFailure_ok_cons]

/-- The state after a successful `CONFIG w, h, c`. -/
def configured (w h c : Word32) (s : State) : State := answer .ok 0 (boundState (configStaged w h c s))

theorem sessionResult_configured (w h c : Word32) (s : State) : sessionResult s (configured w h c s) = .success :=
  (sessionResult_config w h c rfl).trans (firstFailure_ok_cons 0 [])

theorem configured_sink (w h c : Word32) (s : State) : (configured w h c s).sink = s.sink := rfl

theorem configured_pixoff_toNat (w h c : Word32) (s : State) :
    (configured w h c s).pixoff.toNat = pixelOffset c.toNat := boundState_pixoff_toNat _

theorem configured_padlen_toNat {w c : Word32} (h : Word32) (s : State) (hw : w.toNat < 2 ^ 31)
    (hc : LegalChannels c.toNat) : (configured w h c s).padlen.toNat = padLength w.toNat c.toNat :=
  boundState_padlen_toNat (s := configStaged w h c s) hw hc

theorem runCommands_config_opens {w h c : Word32} {s : State} (hst : s.st = .unopened) (hw : w.toNat < 2 ^ 31)
    (hh : h.toNat < 2 ^ 31) (hc : LegalChannels c.toNat) (hf : projectedSize w.toNat h.toNat c.toNat < Config.maxFile) :
    runCommands (configCommands w h c) s = .next (configured w h c s) :=
  (runCommands_configCommands c hst hw hh).trans (exec_bind_bound (s := configStaged w h c s) hst hc hf)

/-! ## Opening a session -/

theorem openChecks_eq_success {d : Description} {a : Bool} : openChecks d a = .success ↔
    LegalChannels d.nchannels.toNat ∧ d.multiImage = false ∧
      projectedSize d.width.toNat d.height.toNat d.nchannels.toNat < Config.maxFile ∧ a = true := by
  unfold openChecks
  split_ifs <;> simp_all

/-- The block after the Header Builder's write (20_memory.md R51, log 12). -/
def withHeaders (w h c : Nat) (res : Resolution) (s : State) : State :=
  { s with
    sink := s.sink.writeBytes s.sinkPos (headerRegion w h c res)
    sinkPos := s.sinkPos + (headerRegion w h c res).length }

/-- The block of a session just opened (30_encoding.md R93). -/
def openedBlock (d : Description) (s : State) : State :=
  configured d.width d.height d.nchannels
    (withHeaders d.width.toNat d.height.toNat d.nchannels.toNat d.resolution s)

theorem openSession_not_unopened (d : Description) (a : Bool) {s : State} (hst : s.st ≠ .unopened) :
    openSession d a s = .next ({ block := s, tiled := false, tileBuffer := [] }, .failed .badState) := if_pos hst

theorem openSession_check_failed {d : Description} {a : Bool} {s : State} (hst : s.st = .unopened)
    (hchecks : openChecks d a ≠ .success) :
    openSession d a s = .next ({ block := s, tiled := false, tileBuffer := [] }, openChecks d a) := by
  rw [openSession, if_neg (not_not.mpr hst), if_pos hchecks]

theorem openSession_succeeds {d : Description} {a : Bool} {s : State} (hst : s.st = .unopened)
    (hchecks : openChecks d a = .success) (hend : s.sinkPos + pixelOffset d.nchannels.toNat ≤ 2 ^ 32)
    (hw : d.width.toNat < 2 ^ 31) (hh : d.height.toNat < 2 ^ 31) :
    openSession d a s =
      .next ({ block := openedBlock d s, tiled := d.tiling, tileBuffer := freshTileBuffer d }, .success) := by
  obtain ⟨hc, -, hf, -⟩ := openChecks_eq_success.mp hchecks
  have hheaders : writeHeaders d.width.toNat d.height.toNat d.nchannels.toNat d.resolution s = .ok (withHeaders _ _ _ _ s) :=
    writeHeaders_eq_ok.mpr ⟨by rw [headerRegion_length, Config.sinkSize_eq]; exact hend, rfl⟩
  have hconfig := runCommands_config_opens (c := d.nchannels)
    (s := withHeaders d.width.toNat d.height.toNat d.nchannels.toNat d.resolution s) hst hw hh hc hf
  rw [openSession, if_neg (not_not.mpr hst), if_neg (not_not.mpr hchecks), hheaders]
  simp only [hconfig, HostSession.run_next, sessionResult_configured]
  rfl

theorem openedBlock_sink (d : Description) (s : State) : (openedBlock d s).sink = s.sink.writeBytes s.sinkPos
    (headerRegion d.width.toNat d.height.toNat d.nchannels.toNat d.resolution) := by
  rw [openedBlock, configured_sink, withHeaders]

theorem sessionHeaders_openedBlock (d : Description) (s : State) : sessionHeaders (openedBlock d s) d.resolution =
    headerRegion d.width.toNat d.height.toNat d.nchannels.toNat d.resolution := rfl

theorem headerRegion_length_openedBlock (d : Description) (s : State) :
    (headerRegion d.width.toNat d.height.toNat d.nchannels.toNat d.resolution).length =
      (openedBlock d s).pixoff.toNat := by
  rw [headerRegion_length, openedBlock, configured_pixoff_toNat]

/-- The headers of a session just opened stand from the position found on (70_reset_and_hazards.md R186). -/
theorem openedBlock_read_headers (d : Description) (s : State) {b : Nat} (hb : b < (openedBlock d s).pixoff.toNat) :
    (openedBlock d s).sink.read (s.sinkPos + b) = (sessionHeaders (openedBlock d s) d.resolution)[b]? := by
  rw [openedBlock_sink, sessionHeaders_openedBlock]
  exact Memory.read_writeBytes_inside (by rwa [headerRegion_length_openedBlock d s])

theorem openedBlock_read_kept (d : Description) (s : State) {b : Nat}
    (hb : b < s.sinkPos ∨ s.sinkPos + (openedBlock d s).pixoff.toNat ≤ b) :
    (openedBlock d s).sink.read b = s.sink.read b := by
  rw [openedBlock_sink]
  exact Memory.read_writeBytes_outside (by rwa [headerRegion_length_openedBlock d s])

end Sys2Proof.Machine
end

section
/-! SUPPORT. The close of a session: the replay of the rows it keeps, if tiled, whatever the sink accepts, then one release
(30_encoding.md R94, R95). -/

namespace Sys2Proof.Machine

/-! ## What a sequence reports -/

/-- An `OK` at the end changes nothing of what a sequence reports. -/
theorem firstFailure_append_ok (rs : List Word64) (v : BitVec 56) :
    firstFailure (rs ++ [responseWord .ok v]) = firstFailure rs := by
  induction rs with
  | nil => exact firstFailure_ok_cons v []
  | cons r rs ih =>
    simp only [List.cons_append, firstFailure, ih]

theorem sessionResult_answer {s t : State} {e : ErrorKind} {v : BitVec 56}
    (h : t.responses = s.responses ++ [responseWord e v]) :
    sessionResult s t = if e = .ok then .success else .failed e := by
  rw [sessionResult_of_responses h]
  split
  next he => rw [he, firstFailure_ok_cons, firstFailure]
  next he => exact firstFailure_error_cons he v []

/-- A sequence that goes on after an `OK` is reported as its rest is. -/
theorem sessionResult_of_ok {s u t : State} {v : BitVec 56} {is : List Instr}
    (hu : u.responses = s.responses ++ [responseWord .ok v]) (h : runCommands is u = .next t) :
    sessionResult s t = sessionResult u t := by
  obtain ⟨rs, hrest⟩ := runCommands_responses h
  have hall : t.responses = s.responses ++ responseWord .ok v :: rs := by
    rw [hrest, hu, List.append_assoc, List.singleton_append]
  rw [sessionResult_of_responses hall, firstFailure_ok_cons, sessionResult_of_responses hrest]

/-! ## The replay -/

/-- Where `ENC` commands run from `s` in `OPEN` end, with success or not. -/
structure RowsRun (s t : State) : Prop where
  inv : SessionInv t
  bound : t.st ≠ .unopened
  inbox : t.inbox = s.inbox
  shortWrite : t.faultCode = 6 → sessionResult s t = .failed .shortWrite

/-- One `ENC` from `OPEN` ends the sequence with its failure, or is answered `OK` and the session is still open. -/
theorem Effect.row_run {s u : State} {row : Word32} {payload : List Byte} (he : Effect s (.enc row payload) u)
    (hs : SessionInv s) (hst : s.st = .opened) : RowsRun s u ∧ (lastWasOk u = true → u.st = .opened) := by
  have hu : SessionInv u := he.keeps_sessionInv hs trivial
  obtain ⟨-, hfault, -⟩ := hs.opened hst
  refine ⟨?_, fun hok => (he.rowEncoded_of_ok hok).st_eq⟩
  cases he with
  | notAdmitted _ h => simp [admits, hst] at h
  | badLength | rowWritten => exact ⟨hu, by simp [hst, afterWrite], rfl, fun h6 => by simp [hfault, afterWrite] at h6⟩
  | rowRejected => exact ⟨hu, nofun, rfl, fun h6 => absurd h6 (by simp [aborted, ErrorKind.code])⟩
  | rowShort => exact ⟨hu, nofun, rfl, fun _ => sessionResult_answer (s := s) (e := .shortWrite) rfl⟩

/-- `ENC` commands from `OPEN` always end, whatever the sink accepts. -/
theorem SessionInv.rowsRun {s : State} (hs : SessionInv s) (hst : s.st = .opened) (rows : List (Word32 × List Byte)) :
    ∃ t, runCommands (encCommands rows) s = .next t ∧ RowsRun s t := by
  induction rows generalizing s with
  | nil =>
    obtain ⟨-, hfault, -⟩ := hs.opened hst
    exact ⟨s, rfl, hs, by simp [hst], rfl, fun h6 => by simp [hfault] at h6⟩
  | cons r rows ih =>
    obtain ⟨u, hu⟩ := hs.exec_answers (.enc r.1 r.2)
    obtain ⟨hrun, hopen⟩ := (exec_effect hu).row_run hs hst
    have hsend : sendCommand (.enc r.1 r.2) s = .next u := (sendCommand_eq_exec trivial s).trans hu
    by_cases hok : lastWasOk u = true
    · obtain ⟨t, ht, hrest⟩ := ih hrun.inv (hopen hok)
      refine ⟨t, ?_, hrest.inv, hrest.bound, hrest.inbox.trans hrun.inbox, fun h6 => ?_⟩
      · simpa only [encCommands, List.map_cons, runCommands, hsend, if_pos hok] using ht
      · obtain ⟨e, v, hresponses⟩ := (exec_effect hu).responses_eq
        obtain rfl := (lastWasOk_iff hresponses).mp hok
        rw [sessionResult_of_ok hresponses ht, hrest.shortWrite h6]
    · exact ⟨u, by simp only [encCommands, List.map_cons, runCommands, hsend, if_neg hok], hrun⟩

/-! ## The release -/

/-- `REL` took `s`, not `UNOPENED`, to `u`: the session is closed and the sink released once (42_session.md R140). -/
structure Released (s u : State) : Prop where
  closed : u.st = .closed
  releases : u.releases = 1
  sameGeometry : SameGeometry s u
  sink : u.sink = s.sink
  rowcnt : u.rowcnt = s.rowcnt
  faultCode : u.faultCode = s.faultCode
  inbox : u.inbox = s.inbox
  responses : u.responses = s.responses ++ [responseWord .ok 0]

theorem SessionInv.released {s : State} (hs : SessionInv s) (hst : s.st ≠ .unopened) :
    ∃ u, sendCommand .rel s = .next u ∧ Released s u := by
  rw [sendCommand_eq_exec trivial]
  have hgeo : SameGeometry s s := ⟨rfl, rfl, rfl, rfl, rfl⟩
  cases h : s.st with
  | unopened => exact absurd h hst
  | opened =>
    obtain ⟨-, -, hreleases⟩ := hs.opened h
    exact ⟨_, exec_rel_opened h, rfl, by simp [hreleases], hgeo, rfl, rfl, rfl, rfl, rfl⟩
  | closed =>
    obtain ⟨-, hreleases⟩ := hs.closed h
    exact ⟨_, exec_rel_closed h, h, hreleases, hgeo, rfl, rfl, rfl, rfl, rfl⟩

/-- The release is answered `OK`, so the sequence before it decides what is reported. -/
theorem Released.sessionResult_eq {s t u : State} (h : Released t u) {is : List Instr} (hrun : runCommands is s = .next t) :
    sessionResult s u = sessionResult s t := by
  obtain ⟨rs, hrs⟩ := runCommands_responses hrun
  have hall : u.responses = s.responses ++ (rs ++ [responseWord .ok 0]) := by rw [h.responses, hrs, List.append_assoc]
  rw [sessionResult_of_responses hall, firstFailure_append_ok, sessionResult_of_responses hrs]

/-! ## The close -/

/-- The rows a session replays at its close: every row of the tile buffer, top row first, if it is tiled
(30_encoding.md R94). -/
def replayRows (h : HostSession) : List (Word32 × List Byte) :=
  if h.tiled then
    (List.range h.block.height.toNat).map fun y =>
      (BitVec.ofNat 32 y, bufferRow h.block.width.toNat h.block.nchan.toNat h.tileBuffer y)
  else []

/-- A close from `OPEN` is the replay, then the release. -/
theorem closeSequence_opened {h : HostSession} {t : State} (hst : h.block.st = .opened)
    (hrun : runCommands (encCommands (replayRows h)) h.block = .next t) :
    closeSequence (if h.tiled then some h.tileBuffer else none) h.block = sendCommand .rel t := by
  cases htiled : h.tiled with
  | false =>
    simp only [replayRows, htiled, Bool.false_eq_true, if_false] at hrun ⊢
    injection hrun with hrun
    rw [closeSequence_none, hrun]
  | true =>
    simp only [replayRows, htiled, if_true, ← replayCommands_eq] at hrun ⊢
    rw [closeSequence, if_pos hst]
    simp only [hrun]

/-- A close from `OPEN` always completes: the replay ends, with success or not, and the sink is released. -/
theorem closeSession_opened (policy : UnderwritePolicy) {h : HostSession} (hs : SessionInv h.block)
    (hst : h.block.st = .opened) :
    ∃ t u, runCommands (encCommands (replayRows h)) h.block = .next t ∧ RowsRun h.block t ∧ Released t u ∧
      closeSession policy h = .next ({ h with block := u, tileBuffer := [] }, closeResult policy h.block u) := by
  obtain ⟨t, hrun, ht⟩ := hs.rowsRun hst (replayRows h)
  obtain ⟨u, hrel, hu⟩ := ht.inv.released ht.bound
  refine ⟨t, u, hrun, ht, hu, ?_⟩
  rw [closeSession, closeSequence_opened hst hrun, hrel, HostSession.run_next]

/-- Outside `OPEN` a close is `REL`, and reports what it answers. -/
theorem closeSession_not_opened (policy : UnderwritePolicy) {h : HostSession} {u : State} (hst : h.block.st ≠ .opened)
    (hrel : exec .rel h.block = .next u) :
    closeSession policy h = .next ({ h with block := u, tileBuffer := [] }, sessionResult h.block u) := by
  rw [closeSession, closeSequence_not_opened hst, sendCommand_eq_exec trivial, hrel, HostSession.run_next,
    closeResult_not_opened hst]

theorem closeResult_of_failure {policy : UnderwritePolicy} {s t : State} {e : ErrorKind}
    (h : sessionResult s t = .failed e) : closeResult policy s t = .failed e := by
  rw [closeResult, if_neg (fun hh => by simp [h] at hh), h]

/-- A close is a success only if its commands are. -/
theorem sessionResult_of_closeResult {policy : UnderwritePolicy} {s t : State} (h : closeResult policy s t = .success) :
    sessionResult s t = .success := by
  unfold closeResult at h
  split at h
  · cases h
  · exact h

/-- After commands that succeeded only the check of `ROWCNT` decides (70_reset_and_hazards.md R192). -/
theorem closeResult_of_success {policy : UnderwritePolicy} {s t : State} (hres : sessionResult s t = .success)
    (hst : s.st = .opened) : closeResult policy s t =
      if policy = .error ∧ t.rowcnt.toNat < t.height.toNat then .underwritten else .success := by
  simp only [closeResult, hres, hst, true_and]

/-! ## A successful close -/

/-- A session closed with success has replayed all its rows, and released the sink. -/
theorem rowsEncoded_of_closeSession {policy : UnderwritePolicy} {h g : HostSession} (hs : SessionInv h.block)
    (hst : h.block.st = .opened) (hclose : closeSession policy h = .next (g, .success)) :
    ∃ t, RowsEncoded h.block (replayRows h) t ∧ Released t g.block := by
  obtain ⟨t, u, hrun, -, hu, hsession⟩ := closeSession_opened policy hs hst
  rw [hclose] at hsession
  injection hsession with hsession
  obtain ⟨rfl, hres⟩ := Prod.mk.inj hsession
  have hsuccess := sessionResult_of_closeResult hres.symm
  rw [hu.sessionResult_eq hrun] at hsuccess
  exact ⟨t, rowsEncoded_of_success hrun hsuccess, hu⟩

/-- Each row answered `OK` is counted (10_state.md R28). -/
theorem RowsEncoded.rowcnt_toNat {s t : State} {rows : List (Word32 × List Byte)} (h : RowsEncoded s rows t) :
    t.rowcnt.toNat = min (s.rowcnt.toNat + rows.length) 4294967295 := by
  induction h with
  | nil s => have := s.rowcnt.isLt; simp only [List.length_nil]; omega
  | cons hfirst _ ih =>
    rw [ih, hfirst.rowcnt_toNat, List.length_cons]
    omega

theorem lastSent_eq_none {rows : List (Word32 × List Byte)} {y : Nat} (hy : y ∉ rows.map fun r => r.1.toNat) :
    lastSent rows y = none := by
  induction rows with
  | nil => rfl
  | cons r rows ih =>
    obtain ⟨hne, hrest⟩ := List.ne_and_not_mem_of_not_mem_cons hy
    exact lastSent_cons_eq_none.mpr ⟨ih hrest, hne.symm⟩

/-- Where no index occurs twice, what is sent for a row is what is last sent for it. -/
theorem lastSent_of_mem {rows : List (Word32 × List Byte)} (hnodup : (rows.map fun r => r.1.toNat).Nodup)
    {r : Word32 × List Byte} (hr : r ∈ rows) : lastSent rows r.1.toNat = some r.2 := by
  induction rows with
  | nil => cases hr
  | cons q rows ih =>
    obtain ⟨hq, hnodup⟩ := List.nodup_cons.mp hnodup
    refine lastSent_cons_eq_some.mpr ?_
    obtain rfl | hr := List.mem_cons.mp hr
    · exact .inr ⟨lastSent_eq_none hq, rfl, rfl⟩
    · exact .inl (ih hnodup hr)

section
variable {h : HostSession} (htiled : h.tiled = true)
include htiled

theorem replayRows_tiled : replayRows h = (List.range h.block.height.toNat).map fun y =>
    (BitVec.ofNat 32 y, bufferRow h.block.width.toNat h.block.nchan.toNat h.tileBuffer y) := if_pos htiled

theorem replayRows_length : (replayRows h).length = h.block.height.toNat := by
  rw [replayRows_tiled htiled, List.length_map, List.length_range]

/-- A replay sends the rows `0` to `HEIGHT - 1`, in this order (30_encoding.md R94). -/
theorem replayRows_indices : ((replayRows h).map fun r => r.1.toNat) = List.range h.block.height.toNat := by
  rw [replayRows_tiled htiled, List.map_map]
  refine (List.map_congr_left fun y hy => ?_).trans (List.map_id _)
  exact Nat.mod_eq_of_lt ((List.mem_range.mp hy).trans h.block.height.isLt)

theorem lastSent_replayRows {y : Nat} (hy : y < h.block.height.toNat) :
    lastSent (replayRows h) y = some (bufferRow h.block.width.toNat h.block.nchan.toNat h.tileBuffer y) := by
  have hnodup : ((replayRows h).map fun r => r.1.toNat).Nodup := by
    rw [replayRows_indices htiled]
    exact List.nodup_range
  have hmem : (BitVec.ofNat 32 y, bufferRow h.block.width.toNat h.block.nchan.toNat h.tileBuffer y) ∈ replayRows h := by
    rw [replayRows_tiled htiled]
    exact List.mem_map_of_mem (List.mem_range.mpr hy)
  have hindex : (BitVec.ofNat 32 y).toNat = y := Nat.mod_eq_of_lt (hy.trans h.block.height.isLt)
  simpa only [hindex] using lastSent_of_mem hnodup hmem

end

/-- The rows written before a release are there after it. -/
theorem Released.rowWritten {t u : State} (h : Released t u) {y : Nat} {p : List Byte} (hw : RowWritten t y p) :
    RowWritten u y p := by
  unfold RowWritten
  rw [h.sink, h.sameGeometry.rowAddress_eq, h.sameGeometry.diskBytes_eq]
  exact hw

/-- States with the same geometry that hold the same samples of every row hold the same pixel region. -/
theorem read_eq_of_rowWritten {s t u : State} (ht : SameGeometry s t) (hu : SameGeometry s u) {f : Nat → List Byte}
    (htw : ∀ y, y < s.height.toNat → RowWritten t y (f y)) (huw : ∀ y, y < s.height.toNat → RowWritten u y (f y))
    {b : Nat} (hlow : s.pixoff.toNat ≤ b) (hhigh : b < s.pixoff.toNat + s.padlen.toNat * s.height.toNat) :
    u.sink.read b = t.sink.read b := by
  obtain ⟨y, i, hy, hi, rfl⟩ := exists_row_of_address hlow hhigh
  have hrow : ∀ {v}, SameGeometry s v → RowWritten v y (f y) →
      v.sink.read (rowAddress s y + i) = (diskBytes s (f y))[i]? := fun hv hw => by
    have hbyte := hw i
    rw [hv.rowAddress_eq, hv.diskBytes_eq, diskBytes_length] at hbyte
    exact hbyte hi
  rw [hrow ht (htw y hy), hrow hu (huw y hy)]

/-! ## A tile -/

theorem writeTile_succeeds {x y tw th : Nat} {samples : List Byte} {h : HostSession} (htiled : h.tiled = true)
    (hst : h.block.st = .opened) (hx : x + tw ≤ h.block.width.toNat) (hy : y + th ≤ h.block.height.toNat)
    (hsamples : samples.length = tw * th * h.block.nchan.toNat) :
    writeTile x y 0 tw th samples h = .next ({ h with
      tileBuffer := copyTile h.block.width.toNat h.block.nchan.toNat x y tw th samples h.tileBuffer }, .success) := by
  rw [writeTile, if_neg (by simp [htiled]), if_neg (not_not.mpr hst), if_neg (not_not.mpr rfl), if_neg (by omega),
    if_neg (not_not.mpr hsamples)]

end Sys2Proof.Machine
end

section
/-! CERTIFICATE. The statements about the encoding and the host's sequences (30_encoding.md). -/

namespace Sys2Proof.Certificates

open Sys2Proof Sys2Proof.Machine

/-- Settles O2: the decoder's checks are the encoder's fields, and a frame reads back as its transaction. -/
theorem decodeOfEncodeIsTheCommand : Obligations.DecodeOfEncodeIsTheCommand := by
  unfold Obligations.DecodeOfEncodeIsTheCommand
  intro i hi
  have hdecode := decode_encode hi
  exact ⟨hdecode, (decodeFrame_frameOf _).trans hdecode⟩

/-- Settles O3: each accepted word has the fields of the command it gives, and a word is its fields. -/
theorem encodeOfDecodedIsTheTransaction : Obligations.EncodeOfDecodedIsTheTransaction := by
  unfold Obligations.EncodeOfDecodedIsTheTransaction
  intro t i h
  exact decode_eq_ok_iff.mp h

/-- Settles O4: a row fixes `OP`, `RSV` and the high bits of `IMM`, which are the encoded fields of its command. -/
theorem opcodeTableSpellsTheCommands : Obligations.OpcodeTableSpellsTheCommands := by
  unfold Obligations.OpcodeTableSpellsTheCommands
  exact ⟨fun _ _ => exists_row_of_decode, fun _ _ => exists_decode_of_row, fun _ _ hr _ hq => row_unique hr hq,
    fun _ => decode_error_of_no_row⟩

/-- Settles O5: a transaction in none of the six cases matches a row, and an accepted one is in none of them. -/
theorem illegalTransactionsAreTheSixCases : Obligations.IllegalTransactionsAreTheSixCases := by
  unfold Obligations.IllegalTransactionsAreTheSixCases
  refine ⟨fun _ => illegal_iff_decode_error, fun _ => illegal_iff_no_row, fun s t rest hb hillegal => ?_⟩
  obtain ⟨e, he⟩ := illegal_iff_decode_error.mp hillegal
  have hword : responseWord .illegalCommand 0 = 0x0800000000000000 := by decide
  rw [step_illegal hb he, answer, hword]

/-- Settles O6: the fields by their bits, and each byte of the word inside one field. -/
theorem commandWordFieldsAndByteOrder : Obligations.CommandWordFieldsAndByteOrder := by
  unfold Obligations.CommandWordFieldsAndByteOrder
  intro op rsv imm p
  refine ⟨⟨opOf_joinWord op rsv imm, rsvOf_joinWord op rsv imm, immOf_joinWord op rsv imm⟩, joinWord_bit op rsv imm,
    fun hrsv => ?_, ?_, transactionOfFrame_frameOf _⟩
  · exact illegal_iff_decode_error.mp (.inr (.inl (by rwa [rsvOf_joinWord])))
  · rw [frameOf, leBytes_joinWord]

/-- Settles O7: each effect of a command has one answer, and an illegal transaction has one too. -/
theorem everyTransactionGetsOneResponse : Obligations.EveryTransactionGetsOneResponse := by
  unfold Obligations.EveryTransactionGetsOneResponse
  refine ⟨fun s t tr rest hb h => ?_, leBytes_word64, fun r => (errOf_append_valOf r).symm⟩
  obtain ⟨hinbox, e, v, hresponses, he, hrd, hother⟩ := step_response hb h
  refine ⟨hinbox, responseWord e v, hresponses, ?_, fun reg hd => ?_, fun hd => ?_⟩
  · rw [errOf_responseWord]
    exact ErrorKind.code_mem_of_isBlocks he
  · obtain ⟨rfl, rfl⟩ := hrd reg hd
    exact ⟨errOf_responseWord _ _, valOf_responseWord _ _⟩
  · rw [valOf_responseWord, hother hd]

/-- Settles O52: the three registers are staged, and `BIND` checks the channel count and then the file size. -/
theorem configOpensTheSession : Obligations.ConfigOpensTheSession := by
  unfold Obligations.ConfigOpensTheSession
  intro w h c s hst hw hh
  refine ⟨fun hc hf => ?_, fun hc => ?_⟩
  · exact ⟨configured w h c s, runCommands_config_opens hst hw hh hc hf, sessionResult_configured w h c s, rfl, rfl, rfl, rfl,
      rfl, configured_pixoff_toNat w h c s, configured_padlen_toNat h s hw hc, rfl⟩
  · refine ⟨_, (runCommands_configCommands c hst hw hh).trans (exec_bind_badChannels (s := configStaged w h c s) hst hc), ?_,
      hst, rfl⟩
    exact (sessionResult_config w h c rfl).trans (firstFailure_error_cons (by decide) 0 [])

/-- Settles O53: the replay ends in `OPEN` or, aborted, in `CLOSED`, and `REL` closes the first and leaves the second. -/
theorem closeAlwaysReleasesTheSink : Obligations.CloseAlwaysReleasesTheSink := by
  unfold Obligations.CloseAlwaysReleasesTheSink
  refine ⟨fun policy h hs hst => ?_, fun policy h hst => ?_, fun policy h hst => ?_⟩
  · obtain ⟨t, u, hrun, ht, hu, hclose⟩ := closeSession_opened policy hs hst
    refine ⟨_, _, hclose, hu.closed, hu.releases, hu.inbox.trans ht.inbox, rfl, rfl, fun h6 => ?_, fun htiled => ?_⟩
    · have hshort := ht.shortWrite (hu.faultCode.symm.trans h6)
      exact closeResult_of_failure ((hu.sessionResult_eq hrun).trans hshort)
    · simp only [replayRows, htiled, Bool.false_eq_true, if_false] at hrun
      injection hrun with hrun
      subst hrun
      obtain ⟨-, hheight, -⟩ := hu.sameGeometry
      have hsuccess : sessionResult h.block u = .success := sessionResult_answer hu.responses
      rw [closeResult_of_success hsuccess hst, hu.rowcnt, hheight]
      refine ⟨hu.sink, ?_, ?_⟩
      · split_ifs with hunder <;> simp [hunder]
      · cases policy <;> simp
  · have hword : responseWord .ok 0 = 0 := by decide
    rw [closeSession_not_opened policy (by simp [hst]) (exec_rel_closed hst), sessionResult_answer rfl, answer, hword]
    rfl
  · have hword : responseWord .badState 0 = 0x0700000000000000 := by decide
    rw [closeSession_not_opened policy (by simp [hst]) (exec_notAdmitted (by rw [hst]; rfl)), sessionResult_answer rfl, answer,
      hword]
    rfl

/-- Settles O54: the four checks one after the other, then the headers' write and `CONFIG`. -/
theorem openSessionChecksThenConfigures : Obligations.OpenSessionChecksThenConfigures := by
  unfold Obligations.OpenSessionChecksThenConfigures
  refine ⟨?_, ?_, ?_, ?_, ?_, ?_, ?_⟩
  · intro d a hc
    exact if_pos hc
  · intro d a hc hmulti
    rw [openChecks, if_neg (not_not.mpr hc), if_pos hmulti]
  · intro d a hc hmulti hsize
    rw [openChecks, if_neg (not_not.mpr hc), if_neg (by simp [hmulti]), Config.maxFile_eq, if_pos hsize]
  · intro d hc hmulti hsize
    refine ⟨?_, openChecks_eq_success.mpr ⟨hc, hmulti, hsize, rfl⟩⟩
    rw [openChecks, if_neg (not_not.mpr hc), if_neg (by simp [hmulti]), Config.maxFile_eq, if_neg (not_le.mpr hsize),
      if_pos (by decide)]
  · intro d a s hst hchecks
    exact ⟨_, openSession_check_failed hst hchecks, rfl⟩
  · intro d a s hst
    exact ⟨_, openSession_not_unopened d a hst, rfl⟩
  · intro d a s hchecks _ hst hend hw hh
    refine ⟨_, openSession_succeeds hst hchecks hend hw hh, rfl, rfl, rfl, rfl, rfl, fun htiling => if_pos htiling,
      fun _ => openedBlock_read_headers d s, fun _ => openedBlock_read_kept d s, fun hpos b hb => ?_⟩
    have hread := openedBlock_read_headers d s hb
    rwa [hpos, Nat.zero_add] at hread

/-- Settles O57: the tile's rows are copied to disjoint stretches of the buffer. -/
theorem tileSamplesGoToTheirPixels : Obligations.TileSamplesGoToTheirPixels := by
  unfold Obligations.TileSamplesGoToTheirPixels
  intro x y tw th samples h htiled hst hx hy hsamples hbuffer
  have hinside : (y + th) * h.block.width.toNat * h.block.nchan.toNat ≤ h.tileBuffer.length := by
    rw [hbuffer, Nat.mul_comm h.block.width.toNat]
    exact Nat.mul_le_mul_right _ (Nat.mul_le_mul_right _ hy)
  have hwrite := writeTile_succeeds htiled hst hx hy hsamples
  exact ⟨_, hwrite, rfl, htiled, copyTile_length hx th y samples _ hinside hsamples,
    fun px py k hp _ hk => copyTile_getElem? hx hp hk th y py samples _ hinside hsamples⟩

/-- Settles O58: both paths write every row of the image, and a row's place and on-disk form are the geometry's. -/
theorem tilePathAndScanlinePathAgree : Obligations.TilePathAndScanlinePathAgree := by
  unfold Obligations.TilePathAndScanlinePathAgree
  intro policy h g htiled hs hst hrowcnt hclose
  obtain ⟨t, hrows, hg⟩ := rowsEncoded_of_closeSession hs hst hclose
  have hwritten : ∀ y, y < h.block.height.toNat →
      RowWritten g.block y (bufferRow h.block.width.toNat h.block.nchan.toNat h.tileBuffer y) := fun y hy =>
    hg.rowWritten (hrows.rowWritten (lastSent_replayRows htiled hy))
  refine ⟨?_, hwritten, fun rows t' k hrun hres hlast hclose' b => ?_⟩
  · have hcount := hrows.rowcnt_toNat
    have hheight := hs.heightBound
    have hzero : (0 : Word32).toNat = 0 := rfl
    rw [replayRows_length htiled, hrowcnt, ← hg.rowcnt, hzero] at hcount
    rw [Config.dimensionLimit_eq] at hheight
    exact BitVec.eq_of_toNat_eq (by omega)
  · have hrows' := rowsEncoded_of_success hrun hres
    obtain ⟨t'', hnone, hk⟩ := rowsEncoded_of_closeSession (hrows'.sessionInv hs) (hrows'.st_eq hst) hclose'
    cases hnone
    exact read_eq_of_rowWritten (hrows.sameGeometry.trans hg.sameGeometry) (hrows'.sameGeometry.trans hk.sameGeometry)
      hwritten fun y hy => hk.rowWritten (hrows'.rowWritten (hlast y hy))

/-- Settles O1, word by word. -/
theorem specWordsDecodeAsListed : Obligations.SpecWordsDecodeAsListed := by
  unfold Obligations.SpecWordsDecodeAsListed
  exact ⟨rfl, rfl, rfl, rfl, rfl, rfl, rfl, rfl, rfl, rfl, rfl, rfl, rfl, rfl, rfl, rfl, rfl, rfl, rfl, rfl⟩

/-- Settles O42: a step decodes the first transaction of the host's list, which a placed table word is. -/
theorem stepRunsTheDecodedCommand : Obligations.StepRunsTheDecodedCommand := by
  unfold Obligations.StepRunsTheDecodedCommand
  refine ⟨fun s t rest i => step_legal, fun s nbits w i hw => ?_⟩
  exact step_legal (withFetchWord_inbox s nbits w) (decode_tableTransaction hw)

end Sys2Proof.Certificates
end

section
/-! SUPPORT. The size formulas of 40_config.md R105 to R108: the padded length as the least multiple of 4, the pixel offset, and
the bounds that follow from a file below `2^32`. -/

namespace Sys2Proof.Machine

/-! ## The padded length -/

theorem padLength_le {w c m : Nat} (hm : m % 4 = 0) (h : w * c ≤ m) : padLength w c ≤ m := by
  have := padLength_lt w c
  have := padLength_mod w c
  omega

theorem padLength_eq_ceil (w c : Nat) : padLength w c = ⌈((w * c : Nat) : ℚ) / 4⌉₊ * 4 := by
  have hceil : ⌈((w * c : Nat) : ℚ) / 4⌉₊ = (w * c + 3) / 4 := by
    refine eq_of_forall_ge_iff fun m => ?_
    have hcast : ((w * c : Nat) : ℚ) ≤ m * 4 ↔ w * c ≤ m * 4 := by norm_cast
    rw [Nat.ceil_le, div_le_iff₀ (by norm_num), hcast]
    omega
  rw [hceil, padLength]

theorem padLength_zero (c : Nat) : padLength 0 c = 0 := by simp [padLength]

theorem padLength_four (w : Nat) : padLength w 4 = 4 * w := by unfold padLength; omega

theorem padLength_of_mod {w c : Nat} (h : w * c % 4 = 0) : padLength w c = w * c := by unfold padLength; omega

theorem padLength_sub (w c : Nat) : padLength w c - w * c = (4 - w * c % 4) % 4 := by unfold padLength; omega

/-! ## The file size -/

theorem pixelOffset_eq_ite (c : Nat) : pixelOffset c = if c = 1 then 1078 else 54 := by
  unfold pixelOffset
  split <;> rfl

theorem ofNat_pixelOffset (c : Nat) : BitVec.ofNat 32 (pixelOffset c) = if c = 1 then 1078 else 54 := by
  unfold pixelOffset
  split <;> rfl

theorem projectedSize_zero (w c : Nat) : projectedSize w 0 c = pixelOffset c := by simp [projectedSize]

/-- Both offsets are 2 modulo 4, and rows are multiples of 4 (40_config.md R108). -/
theorem projectedSize_mod (w h : Nat) {c : Nat} (hc : LegalChannels c) : projectedSize w h c % 4 = 2 := by
  have hrows : padLength w c * h % 4 = 0 := by rw [Nat.mul_mod, padLength_mod, Nat.zero_mul, Nat.zero_mod]
  have hoffset := pixelOffset_legal hc
  unfold projectedSize
  omega

theorem padLength_le_of_dimension {w c : Nat} (hw : w < 2 ^ 31) (hc : LegalChannels c) : padLength w c ≤ 2 ^ 33 - 4 := by
  have hc4 : c ≤ 4 := by omega
  have hsamples : w * c ≤ (2 ^ 31 - 1) * 4 := Nat.mul_le_mul (by omega) hc4
  exact padLength_le (by decide) hsamples

/-- The bytes of any row end before the file does. -/
theorem row_byte_lt_projectedSize {w h c r i : Nat} (hr : r < h) (hi : i < padLength w c) :
    pixelOffset c + r * padLength w c + i < projectedSize w h c := by
  have hrow : (r + 1) * padLength w c ≤ h * padLength w c := Nat.mul_le_mul_right _ hr
  rw [Nat.succ_mul, Nat.mul_comm h] at hrow
  unfold projectedSize
  omega

/-- A file below `2^32` with a row leaves its header out of the row's length (40_config.md R108). -/
theorem padLength_le_of_projectedSize {w h c : Nat} (hc : LegalChannels c) (hf : projectedSize w h c < 2 ^ 32) (hh : 1 ≤ h) :
    padLength w c ≤ 2 ^ 32 - 56 := by
  have hrows : padLength w c ≤ padLength w c * h := Nat.le_mul_of_pos_right _ hh
  have hmod := padLength_mod w c
  have hoffset := pixelOffset_legal hc
  unfold projectedSize at hf
  omega

end Sys2Proof.Machine
end

section
/-! SUPPORT. The configuration commands: the words of their opcodes, their refusals, and what each command leaves unchanged
(40_config.md R100 to R104). -/

namespace Sys2Proof.Machine

/-! ## Words of an opcode -/

/-- A transaction with the fields of a well-formed command runs it. -/
theorem step_of_fields {s : State} {t : Transaction} {rest : List Transaction} {i : Instr} (hb : s.inbox = t :: rest)
    (hi : i.WellFormed) (hop : opOf t.word = i.opcode) (hrsv : rsvOf t.word = 0) (himm : immOf t.word = i.immediate)
    (hpayload : t.payload = i.payload) : step s = exec i { s with inbox := rest } :=
  step_legal hb (decode_eq_ok_iff.mpr ⟨hi, encode_eq_of_fields hop hrsv himm hpayload⟩)

theorem step_of_illegal {s : State} {t : Transaction} {rest : List Transaction} (hb : s.inbox = t :: rest) (h : Illegal t) :
    step s = .next (answer .illegalCommand 0 { s with inbox := rest }) := by
  obtain ⟨e, he⟩ := illegal_iff_decode_error.mp h
  exact step_illegal hb he

/-- Every opcode wants `RSV` clear, and every one but `ENC`'s no payload (30_encoding.md R85 cases 2 and 6). -/
theorem illegal_of_rsv_or_payload {t : Transaction} (hop : opOf t.word ≠ 0x05) (h : rsvOf t.word ≠ 0 ∨ t.payload ≠ []) :
    Illegal t := by
  obtain hrsv | hpayload := h
  · exact .inr (.inl hrsv)
  · exact .inr (.inr (.inr (.inr (.inr ⟨hop, hpayload⟩))))

/-- A width or height word: bit 31 of `IMM` must be clear too (30_encoding.md R85 case 4). -/
theorem illegal_of_dimension {t : Transaction} (hop : opOf t.word = 0x01 ∨ opOf t.word = 0x02)
    (h : rsvOf t.word ≠ 0 ∨ (immOf t.word).getLsbD 31 = true ∨ t.payload ≠ []) : Illegal t := by
  have hne : opOf t.word ≠ 0x05 := by rcases hop with hop | hop <;> rw [hop] <;> decide
  obtain hrsv | himm | hpayload := h
  · exact illegal_of_rsv_or_payload hne (.inl hrsv)
  · exact .inr (.inr (.inr (.inl ⟨hop, himm⟩)))
  · exact illegal_of_rsv_or_payload hne (.inr hpayload)

/-- A word of a command without operand: `IMM` must be 0 too (30_encoding.md R85 case 3). -/
theorem illegal_of_no_operand {t : Transaction} (hop : opOf t.word = 0x04 ∨ opOf t.word = 0x06)
    (h : rsvOf t.word ≠ 0 ∨ immOf t.word ≠ 0 ∨ t.payload ≠ []) : Illegal t := by
  have hne : opOf t.word ≠ 0x05 := by rcases hop with hop | hop <;> rw [hop] <;> decide
  obtain hrsv | himm | hpayload := h
  · exact illegal_of_rsv_or_payload hne (.inl hrsv)
  · exact .inr (.inr (.inl ⟨hop, himm⟩))
  · exact illegal_of_rsv_or_payload hne (.inr hpayload)

theorem toNat_lt_of_getLsbD_31 {x : Word32} (h : x.getLsbD 31 = false) : x.toNat < 2 ^ 31 := by
  by_contra hle
  rw [(getLsbD_31_iff x).mpr (not_lt.mp hle)] at h
  cases h

/-! ## Refusals -/

/-- A command that the matrix admits in `UNOPENED` only is refused elsewhere (40_config.md R100). -/
theorem exec_config_refused {i : Instr} {s : State} (hst : s.st ≠ .unopened) (hi : admits s.st i = (s.st == .unopened)) :
    exec i s = .next (answer .badState 0 s) :=
  exec_notAdmitted (hi.trans (beq_false_of_ne hst))

theorem exec_bind_tooLarge {s : State} (hst : s.st = .unopened) (hc : LegalChannels s.nchan.toNat)
    (hf : Config.maxFile ≤ projectedSize s.width.toNat s.height.toNat s.nchan.toNat) :
    exec .bind s = .next (answer .fileTooLarge 0 s) := by
  simp only [exec, execBind, hst, ne_eq, not_true, if_false, if_neg (not_not.mpr hc), if_pos hf, raiseError_eq]

theorem exec_enc_rowRejected {s : State} {row : Word32} (hst : s.st = .opened) (hr : s.height.toNat ≤ row.toNat)
    (payload : List Byte) :
    exec (.enc row payload) s = .next (answer .rowIndexOutOfRange 0 (aborted .rowIndexOutOfRange s)) := by
  simp only [exec, execEnc, hst, ne_eq, not_true, if_false, if_pos hr]
  rfl

/-! ## What a command leaves unchanged -/

section
variable {s t : State} {i : Instr} (he : Effect s i t)
include he

theorem Effect.width_eq (hi : ∀ v, i ≠ .setw v) : t.width = s.width := by
  cases he with
  | widthSet imm => exact absurd rfl (hi imm)
  | _ => rfl

theorem Effect.height_eq (hi : ∀ v, i ≠ .seth v) : t.height = s.height := by
  cases he with
  | heightSet imm => exact absurd rfl (hi imm)
  | _ => rfl

theorem Effect.nchan_eq (hi : ∀ v, i ≠ .setc v) : t.nchan = s.nchan := by
  cases he with
  | channelsSet imm => exact absurd rfl (hi imm)
  | _ => rfl

theorem Effect.pixoff_padlen_eq (hi : i ≠ .bind) : t.pixoff = s.pixoff ∧ t.padlen = s.padlen := by
  cases he with
  | bound => exact absurd rfl hi
  | _ => exact ⟨rfl, rfl⟩

theorem Effect.rowcnt_eq (hbind : i ≠ .bind) (henc : ∀ row payload, i ≠ .enc row payload) : t.rowcnt = s.rowcnt := by
  obtain hkept | ⟨-, rfl | ⟨row, payload, rfl⟩⟩ := he.rowcnt_eq_or_ok
  · exact hkept
  · exact absurd rfl hbind
  · exact absurd rfl (henc row payload)

theorem Effect.releases_eq (hrel : i ≠ .rel) (henc : ∀ row payload, i ≠ .enc row payload) : t.releases = s.releases := by
  cases he with
  | released => exact absurd rfl hrel
  | rowRejected row payload | rowShort row payload => exact absurd rfl (henc row payload)
  | _ => rfl

theorem Effect.st_eq (hbind : i ≠ .bind) (hrel : i ≠ .rel) (henc : ∀ row payload, i ≠ .enc row payload) : t.st = s.st := by
  cases he with
  | bound => exact absurd rfl hbind
  | released => exact absurd rfl hrel
  | rowRejected row payload | rowShort row payload => exact absurd rfl (henc row payload)
  | _ => rfl

/-- Only `ENC` touches the sink, the row buffer, the sink's answers, `POISON` and `FAULT`, and no command the host's list. -/
theorem Effect.sink_and_errors_eq (henc : ∀ row payload, i ≠ .enc row payload) :
    t.sink = s.sink ∧ t.sinkPos = s.sinkPos ∧ t.rowbuf = s.rowbuf ∧ t.sinkAnswers = s.sinkAnswers ∧
    t.sinkWrites = s.sinkWrites ∧ t.inbox = s.inbox ∧ t.poison = s.poison ∧ t.faultCode = s.faultCode := by
  cases he with
  | rowRejected row payload | rowWritten row payload | rowShort row payload => exact absurd rfl (henc row payload)
  | _ => exact ⟨rfl, rfl, rfl, rfl, rfl, rfl, rfl, rfl⟩

end

end Sys2Proof.Machine
end

section
/-! CERTIFICATE. The statements about configuration (40_config.md). -/

namespace Sys2Proof.Certificates

open Sys2Proof Sys2Proof.Machine

/-- Settles O39: the field each command writes, from what one command can do. -/
theorem otherCommandsFrame : Obligations.OtherCommandsFrame := by
  unfold Obligations.OtherCommandsFrame
  intro s t i henc h
  have he := exec_effect h
  obtain ⟨hsink, hpos, hrowbuf, hanswers, hwrites, hinbox, hpoison, hfault⟩ := he.sink_and_errors_eq henc
  refine ⟨hsink, fun b => by rw [hsink], hpos, hrowbuf, hanswers, hwrites, hinbox, hpoison, hfault, he.width_eq,
    he.height_eq, he.nchan_eq, fun hbind => ?_, fun hrel => he.releases_eq hrel henc,
    fun hbind hrel => he.st_eq hbind hrel henc⟩
  obtain ⟨hpixoff, hpadlen⟩ := he.pixoff_padlen_eq hbind
  exact ⟨hpixoff, hpadlen, he.rowcnt_eq hbind henc⟩

/-- Settles O8: an opcode's word either meets a case of R85 or is the encoding of its `SETW`. -/
theorem setwSetsTheWidth : Obligations.SetwSetsTheWidth := by
  unfold Obligations.SetwSetsTheWidth
  refine ⟨fun imm s hst => exec_setw_unopened hst imm, fun imm s hst => exec_config_refused hst rfl,
    fun t s rest hop hb => ⟨fun h => ?_, fun hrsv hbit hpayload => ?_⟩⟩
  · exact step_of_illegal hb (illegal_of_dimension (.inl hop) h)
  · exact step_of_fields hb (toNat_lt_of_getLsbD_31 hbit) hop hrsv rfl hpayload

/-- Settles O9: as for `SETW`; every row index is at least a height of 0. -/
theorem sethSetsTheHeight : Obligations.SethSetsTheHeight := by
  unfold Obligations.SethSetsTheHeight
  refine ⟨fun imm s hst => exec_seth_unopened hst imm, fun imm s hst => exec_config_refused hst rfl,
    fun t s rest hop hb => ⟨fun h => ?_, fun hrsv hbit hpayload => ?_⟩, fun s row p hst hheight => ?_⟩
  · exact step_of_illegal hb (illegal_of_dimension (.inr hop) h)
  · exact step_of_fields hb (toNat_lt_of_getLsbD_31 hbit) hop hrsv rfl hpayload
  · have hr : s.height.toNat ≤ row.toNat := by rw [hheight]; exact Nat.zero_le _
    exact exec_enc_rowRejected hst hr p

/-- Settles O10: `SETC` has no bound on its operand; the channel count is `BIND`'s second check. -/
theorem setcStagesTheChannelCount : Obligations.SetcStagesTheChannelCount := by
  unfold Obligations.SetcStagesTheChannelCount
  refine ⟨fun imm s hst => exec_setc_unopened hst imm, fun imm s hst => exec_config_refused hst rfl,
    fun t s rest hop hb => ⟨fun h => ?_, fun hrsv hpayload => ?_⟩, fun s hst h1 h3 h4 => ?_⟩
  · exact step_of_illegal hb (illegal_of_rsv_or_payload (by rw [hop]; decide) h)
  · exact step_of_fields hb trivial hop hrsv rfl hpayload
  · exact exec_bind_badChannels hst (by simp [LegalChannels, h1, h3, h4])

/-- Settles O11: the checks of `BIND` one by one, with the size formula written out. -/
theorem bindFixesTheGeometry : Obligations.BindFixesTheGeometry := by
  unfold Obligations.BindFixesTheGeometry
  simp only [← pixelOffset_eq_ite, ← ofNat_pixelOffset]
  refine ⟨fun s hst => exec_config_refused hst rfl, fun s hst hc => exec_bind_badChannels hst hc,
    fun s hst hc hf => exec_bind_tooLarge hst hc hf, fun s hst hc hf => ⟨exec_bind_bound hst hc hf, fun hw => ?_⟩,
    fun t s rest hop hb => ⟨fun h => ?_, fun hrsv himm hpayload => ?_⟩⟩
  · exact boundState_padlen_toNat hw hc
  · exact step_of_illegal hb (illegal_of_no_operand (.inl hop) h)
  · exact step_of_fields hb trivial hop hrsv himm hpayload

/-- Settles O12, each form by the lemma that names it. -/
theorem padLengthIsTheLeastMultipleOfFour : Obligations.PadLengthIsTheLeastMultipleOfFour := by
  unfold Obligations.PadLengthIsTheLeastMultipleOfFour
  intro w c
  exact ⟨padLength_eq_ceil w c, rfl, padLength_mod w c, le_padLength w c, fun m => padLength_le, padLength_zero c,
    padLength_four w, padLength_of_mod, padLength_sub w c⟩

/-- Settles O13: the size formula, and the third check of `BIND` on both sides of `2^32`. -/
theorem bindAcceptsExactlyTheSmallFiles : Obligations.BindAcceptsExactlyTheSmallFiles := by
  unfold Obligations.BindAcceptsExactlyTheSmallFiles
  refine ⟨⟨pixelOffset_one, pixelOffset_three, pixelOffset_four⟩, fun _ _ _ => rfl, projectedSize_zero,
    fun s hst hc => ⟨fun hf => ?_, fun hf => exec_bind_tooLarge hst hc hf⟩⟩
  exact ⟨_, exec_bind_bound hst hc hf, rfl, boundState_pixoff_toNat s⟩

/-- Settles O14: a file's size is 2 modulo 4, and its rows are multiples of 4 behind a header of at least 54 bytes. -/
theorem geometryBounds : Obligations.GeometryBounds := by
  unfold Obligations.GeometryBounds
  refine ⟨by decide, fun w h c hw hc => ⟨padLength_le_of_dimension hw hc, padLength_le (by decide) (by omega),
    projectedSize_mod w h hc, fun hf => ?_, fun hf hh => ⟨padLength_le_of_projectedSize hc hf hh, fun r i hr hi => ?_⟩⟩⟩
  · have hmod := projectedSize_mod w h hc
    omega
  · exact (row_byte_lt_projectedSize hr hi).trans hf

end Sys2Proof.Certificates
end

section
/-! SUPPORT. The bytes of a row: the reorder pixel by pixel, the padding beside it, and the on-disk form byte by byte
(41_encode.md R125 to R128). -/

namespace Sys2Proof.Machine

/-! ## Reorder -/

/-- The permutation of indices inside one pixel: channels 0 and 2 change places (41_encode.md R125). -/
theorem sourceIndex_pixel {c k : Nat} (hc : LegalChannels c) (hk : k < c) (x : Nat) :
    sourceIndex c (x * c + k) =
      if c = 1 then x * c + k else if k = 0 then x * c + 2 else if k = 2 then x * c else x * c + k := by
  have hmod : (x * c + k) % c = k := by rw [Nat.mul_add_mod_self_right, Nat.mod_eq_of_lt hk]
  unfold sourceIndex
  rw [hmod]
  by_cases h1 : c = 1
  · rw [if_pos (by omega), if_pos h1]
  · rw [if_neg (by omega), if_neg h1]
    split
    · omega
    · split <;> omega

theorem reorderRow_one (w : Nat) (rb : List Byte) : reorderRow w 1 rb = rb := rfl

/-- The exchange in the first groups leaves what stands behind them. -/
theorem swapGroups_append {c n : Nat} {rb : List Byte} (h : n * c ≤ rb.length) (tail : List Byte) :
    swapGroups c n (rb ++ tail) = swapGroups c n rb ++ tail := by
  induction n generalizing rb with
  | zero => rfl
  | succ n ih =>
    rw [Nat.succ_mul] at h
    have hrest : n * c ≤ (rb.drop c).length := by rw [List.length_drop]; omega
    have hfirst : c ≤ rb.length := by omega
    rw [swapGroups, swapGroups, List.take_append_of_le_length hfirst, List.drop_append_of_le_length hfirst, ih hrest,
      List.append_assoc]

/-! ## Padding -/

theorem padRow_of_le {n : Nat} {rb : List Byte} (h : n ≤ rb.length) : padRow n rb = rb := by
  rw [padRow, Nat.sub_eq_zero_of_le h, List.replicate_zero, List.append_nil]

/-- Padding and reorder commute, because no group reaches into the padding (41_encode.md R126). -/
theorem padRow_reorderRow {w c : Nat} {rb : List Byte} (h : w * c ≤ rb.length) (n : Nat) :
    padRow n (reorderRow w c rb) = reorderRow w c (padRow n rb) := by
  unfold padRow reorderRow
  split
  · rw [swapGroups_append h, swapGroups_length]
  · rfl

/-! ## The on-disk form -/

/-- Byte `i` on disk: a sample at the place the permutation names, then zeros (41_encode.md R131). -/
theorem diskBytes_getElem? {s : State} {payload : List Byte} (hl : payload.length = sampleCount s)
    (hle : sampleCount s ≤ s.padlen.toNat) {i : Nat} (hi : i < s.padlen.toNat) :
    (diskBytes s payload)[i]? = if i < sampleCount s then payload[sourceIndex s.nchan.toNat i]? else some 0 := by
  have hlen : (reorderRow s.width.toNat s.nchan.toNat payload).length = sampleCount s := by rw [reorderRow_length, hl]
  rw [diskBytes, List.getElem?_take_of_lt hi, rowBuffer, padRow_getElem? hi (hlen.trans_le hle), hlen]
  split
  next hsample => rw [reorderRow_getElem? hl hsample]
  next => rfl

end Sys2Proof.Machine
end

section
/-! SUPPORT. Every path of one `ENC`: its two refusals in `OPEN`, and the row it writes, in full or short
(41_encode.md R120 to R130). -/

namespace Sys2Proof.Machine

/-! ## Refusals -/

/-- A payload of the wrong length is refused after the row index is accepted (41_encode.md R123). -/
theorem exec_enc_badLength {s : State} {row : Word32} {payload : List Byte} (hst : s.st = .opened)
    (hr : row.toNat < s.height.toNat) (hl : payload.length ≠ sampleCount s) :
    exec (.enc row payload) s = .next (answer .illegalCommand 0 s) := by
  simp only [exec, execEnc]
  rw [if_neg (not_not.mpr hst), if_neg (by omega), if_pos hl, raiseError_eq]

/-- The response words of two errors differ (30_encoding.md R87). -/
theorem responseWord_ne {e e' : ErrorKind} (h : e ≠ e') (v v' : BitVec 56) : responseWord e v ≠ responseWord e' v' := by
  intro hword
  have hcode : e.code = e'.code := by rw [← errOf_responseWord e v, hword, errOf_responseWord]
  have hsome : some e = some e' := by rw [← errorOfCode_code, hcode, errorOfCode_code]
  exact h (Option.some.inj hsome)

/-- Only a row index that is not one of the image is answered `RowIndexOutOfRange` (41_encode.md R122). -/
theorem Effect.responses_ne_rowIndexOutOfRange {s t : State} {row : Word32} {payload : List Byte}
    (he : Effect s (.enc row payload) t) (hr : row.toNat < s.height.toNat) :
    t.responses ≠ s.responses ++ [responseWord .rowIndexOutOfRange 0] := by
  have hne : ∀ {e : ErrorKind}, e ≠ .rowIndexOutOfRange →
      s.responses ++ [responseWord e 0] ≠ s.responses ++ [responseWord .rowIndexOutOfRange 0] := fun h heq =>
    responseWord_ne h 0 0 (List.singleton_inj.mp (List.append_cancel_left heq))
  cases he with
  | rowRejected _ _ _ h => omega
  | notAdmitted | badLength | rowWritten | rowShort => exact hne (by decide)

/-! ## The row written -/

theorem acceptedCount_zero (s : State) : acceptedCount 0 s = 0 := Nat.min_zero _

theorem afterWrite_of_full {s : State} (hn : acceptedCount s.padlen.toNat s = s.padlen.toNat) (row : Word32)
    (payload : List Byte) :
    afterWrite row payload s = { s with
      rowbuf := rowBuffer s payload
      sink := s.sink.writeBytes (rowAddress s row.toNat) (diskBytes s payload)
      sinkPos := rowAddress s row.toNat + s.padlen.toNat
      sinkAnswers := s.sinkAnswers.tail
      sinkWrites := s.sinkWrites + 1 } := by
  rw [← afterWrite_sink_of_full hn, afterWrite, hn]

/-- The accepted bytes stand at the row's place (41_encode.md R129). -/
theorem afterWrite_read_inside (row : Word32) (payload : List Byte) {s : State} {i : Nat}
    (hi : i < acceptedCount s.padlen.toNat s) :
    (afterWrite row payload s).sink.read (rowAddress s row.toNat + i) = (diskBytes s payload)[i]? := by
  have hle := acceptedCount_le s.padlen.toNat s
  rw [afterWrite, Memory.read_writeBytes_inside (by rw [List.length_take, diskBytes_length]; omega),
    List.getElem?_take_of_lt hi]

theorem afterWrite_read_outside (row : Word32) (payload : List Byte) {s : State} {b : Nat}
    (hb : b < rowAddress s row.toNat ∨ rowAddress s row.toNat + acceptedCount s.padlen.toNat s ≤ b) :
    (afterWrite row payload s).sink.read b = s.sink.read b := by
  have hle := acceptedCount_le s.padlen.toNat s
  exact Memory.read_writeBytes_outside (by rw [List.length_take, diskBytes_length]; omega)

section
variable {s : State} {row : Word32} {payload : List Byte} (hst : s.st = .opened) (hr : row.toNat < s.height.toNat)
  (hl : payload.length = sampleCount s) (ha : rowAddress s row.toNat < 2 ^ 32)
include hst hr hl ha

/-- An `ENC` whose write is full counts its row (41_encode.md R129). -/
theorem exec_enc_full (he : rowAddress s row.toNat + s.padlen.toNat ≤ 2 ^ 32)
    (hn : acceptedCount s.padlen.toNat s = s.padlen.toNat) :
    exec (.enc row payload) s = .next (answer .ok 0 { afterWrite row payload s with rowcnt := rowcntNext s.rowcnt }) := by
  rw [exec_enc_admitted hst hr hl ha (by rw [hn]; exact he)]
  exact if_pos hn

/-- An `ENC` whose write is short aborts the session (41_encode.md R129). -/
theorem exec_enc_short (he : rowAddress s row.toNat + acceptedCount s.padlen.toNat s ≤ 2 ^ 32)
    (hn : acceptedCount s.padlen.toNat s < s.padlen.toNat) :
    exec (.enc row payload) s = .next (answer .shortWrite 0 (aborted .shortWrite (afterWrite row payload s))) := by
  rw [exec_enc_admitted hst hr hl ha he]
  exact if_neg hn.ne

end

/-! ## The row's place -/

/-- Rows start at 2 modulo 4, as the pixel region does (20_memory.md R58). -/
theorem SessionInv.rowAddress_mod {s : State} (hs : SessionInv s) (hst : s.st ≠ .unopened) (y : Nat) :
    rowAddress s y % 4 = 2 := by
  obtain ⟨hc, hpixoff, -⟩ := hs.bound hst
  have hoffset := pixelOffset_legal hc
  have hrows : diskRow s.height.toNat y * s.padlen.toNat % 4 = 0 := by
    rw [Nat.mul_mod, hs.padlenAligned, Nat.mul_zero, Nat.zero_mod]
  unfold rowAddress
  omega

/-! ## What one `ENC` leaves -/

/-- `ENC` leaves the sink as it is or as its row's write does. -/
theorem Effect.enc_read_outside_row {s t : State} {row : Word32} {payload : List Byte} (he : Effect s (.enc row payload) t)
    {b : Nat} (hb : b < rowAddress s row.toNat ∨ rowAddress s row.toNat + s.padlen.toNat ≤ b) :
    t.sink.read b = s.sink.read b := by
  have hle := acceptedCount_le s.padlen.toNat s
  cases he with
  | notAdmitted | badLength | rowRejected => rfl
  | rowWritten | rowShort => exact afterWrite_read_outside row payload (by omega)

/-- Only an abort writes the error registers and releases the sink, and it closes the session (60_exceptions.md R161). -/
theorem Effect.enc_errors_eq_of_st {s t : State} {row : Word32} {payload : List Byte} (he : Effect s (.enc row payload) t)
    (hst : t.st = s.st) : t.poison = s.poison ∧ t.faultCode = s.faultCode ∧ t.releases = s.releases := by
  cases he with
  | notAdmitted | badLength | rowWritten => exact ⟨rfl, rfl, rfl⟩
  | rowRejected _ _ h | rowShort _ _ h => cases hst.trans h

/-- An `ENC` that is refused before its write leaves the sink, the row buffer and the counter (41_encode.md R122, R123). -/
theorem Effect.enc_kept_of_refused {s t : State} {row : Word32} {payload : List Byte} (he : Effect s (.enc row payload) t)
    (hok : t.responses ≠ s.responses ++ [responseWord .ok 0])
    (hshort : t.responses ≠ s.responses ++ [responseWord .shortWrite 0]) :
    t.sink = s.sink ∧ t.sinkPos = s.sinkPos ∧ t.rowbuf = s.rowbuf ∧ t.rowcnt = s.rowcnt := by
  cases he with
  | notAdmitted | badLength | rowRejected => exact ⟨rfl, rfl, rfl, rfl⟩
  | rowWritten => exact absurd rfl hok
  | rowShort => exact absurd rfl hshort

end Sys2Proof.Machine
end

section
/-! SUPPORT. Any transactions after which the session is still open: those that send a row of the required length are rows
answered `OK`, and the others leave everything but the history (41_encode.md R133). -/

namespace Sys2Proof.Machine

/-! ## The session state along a run -/

/-- A bound session stays in its state or is closed (10_state.md R26). -/
theorem Effect.st_eq_or_closed {s t : State} {i : Instr} (he : Effect s i t) (hst : s.st ≠ .unopened) :
    t.st = s.st ∨ t.st = .closed := by
  cases he with
  | widthSet _ h | heightSet _ h | channelsSet _ h | bound h => exact absurd h hst
  | rowRejected | rowShort | released => exact .inr rfl
  | notAdmitted | badChannels | tooLarge | badLength | registerRead | releasedBefore | rowWritten => exact .inl rfl

theorem step_st_eq_or_closed {s t : State} (h : step s = .next t) (hst : s.st ≠ .unopened) :
    t.st = s.st ∨ t.st = .closed := by
  obtain ⟨-, rfl⟩ | ⟨tr, rest, e, -, -, rfl⟩ | ⟨tr, rest, i, -, -, he⟩ := step_cases h
  · exact .inl rfl
  · exact .inl rfl
  · exact he.st_eq_or_closed hst

/-- A run that answers answers at its first step. -/
theorem runSteps_succ_next {k : Nat} {s t : State} (h : runSteps (k + 1) s = .next t) :
    ∃ u, step s = .next u ∧ runSteps k u = .next t := by
  cases hstep : step s with
  | next u => exact ⟨u, rfl, by rwa [runSteps_succ hstep] at h⟩
  | fault f | refused r => simp [runSteps, Host.Core.run, Sys2Proof.core, hstep] at h

theorem runSteps_st_eq_or_closed {k : Nat} {s t : State} (h : runSteps k s = .next t) (hst : s.st ≠ .unopened) :
    t.st = s.st ∨ t.st = .closed := by
  induction k generalizing s with
  | zero =>
    injection h with h
    exact .inl (congrArg State.st h.symm)
  | succ k ih =>
    obtain ⟨u, hu, hrun⟩ := runSteps_succ_next h
    obtain hkept | hclosed := step_st_eq_or_closed hu hst
    · rw [← hkept]
      exact ih hrun (by rwa [hkept])
    · obtain ht | ht := ih hrun (by simp [hclosed])
      · exact .inr (ht.trans hclosed)
      · exact .inr ht

/-! ## The rows among the transactions -/

theorem rowsSent_cons_row {s : State} {tr : Transaction} {row : Word32} {payload : List Byte}
    (hd : decode tr = .ok (.enc row payload)) (hl : payload.length = sampleCount s) (rest : List Transaction) :
    rowsSent s (tr :: rest) = (row, payload) :: rowsSent s rest := by
  simp only [rowsSent, hd, if_pos hl]

theorem rowsSent_cons_other {s : State} {tr : Transaction}
    (h : ∀ row payload, decode tr = .ok (.enc row payload) → payload.length ≠ sampleCount s) (rest : List Transaction) :
    rowsSent s (tr :: rest) = rowsSent s rest := by
  rw [rowsSent]
  split
  next row payload hd => exact if_neg (h row payload hd)
  next => rfl

/-- The geometry alone says which rows are sent. -/
theorem SameGeometry.rowsSent_eq {s t : State} (h : SameGeometry s t) (ts : List Transaction) :
    rowsSent t ts = rowsSent s ts := by
  induction ts with
  | nil => rfl
  | cons tr rest ih => simp only [rowsSent, ih, h.sampleCount_eq]

/-- `s` with nothing more from the host, and with the response history replaced. -/
def onHistory (rs : List Word64) (s : State) : State := { s with inbox := [], responses := rs }

/-- `ENC` of row `row` from `s` to `u` was answered `OK`, whatever the history before it. -/
def RowTaken (s : State) (row : Word32) (payload : List Byte) (u : State) : Prop :=
  ∀ rs, RowEncoded (onHistory rs s) row payload (onHistory (rs ++ [responseWord .ok 0]) u)

/-- A command after which the session is still open is a row answered `OK`, or changes the history
alone and is no row of the required length. -/
theorem Effect.row_or_kept {s u : State} {i : Instr} (he : Effect s i u) (hst : s.st = .opened) (hu : u.st = .opened) :
    (∃ row payload, i = .enc row payload ∧ RowTaken s row payload u) ∨
    ((∀ row payload, i = .enc row payload → payload.length ≠ sampleCount s) ∧ ∀ rs, onHistory rs u = onHistory rs s) := by
  cases he with
  | rowWritten row payload h hr hl hn ha he =>
    refine .inl ⟨row, payload, rfl, fun rs => ?_⟩
    have hrow : Effect (onHistory rs s) (.enc row payload) _ := .rowWritten row payload h hr hl hn ha he
    exact hrow.rowEncoded_of_ok ((lastWasOk_iff rfl).mpr rfl)
  | badLength row payload _ _ hl =>
    refine .inr ⟨?_, fun rs => rfl⟩
    rintro _ _ ⟨⟩
    exact hl
  | notAdmitted i hi =>
    refine .inr ⟨?_, fun rs => rfl⟩
    rintro row payload rfl
    simp [admits, hst] at hi
  | registerRead => exact .inr ⟨nofun, fun rs => rfl⟩
  | badChannels h | tooLarge h | releasedBefore h | widthSet _ h | heightSet _ h | channelsSet _ h | bound h =>
    cases hst.symm.trans h
  | rowRejected | rowShort | released => cases hu

/-- The same of one step that takes a transaction. -/
theorem step_row_or_kept {s u : State} {tr : Transaction} {rest : List Transaction} (hb : s.inbox = tr :: rest)
    (h : step s = .next u) (hst : s.st = .opened) (hu : u.st = .opened) :
    (∃ row payload, decode tr = .ok (.enc row payload) ∧ RowTaken s row payload u) ∨
    ((∀ row payload, decode tr = .ok (.enc row payload) → payload.length ≠ sampleCount s) ∧
      ∀ rs, onHistory rs u = onHistory rs s) := by
  cases hd : decode tr with
  | error e =>
    rw [step_illegal hb hd] at h
    injection h with h
    subst h
    exact .inr ⟨nofun, fun rs => rfl⟩
  | ok i =>
    rw [step_legal hb hd] at h
    obtain ⟨row, payload, rfl, hrow⟩ | ⟨hother, hkept⟩ := (exec_effect h).row_or_kept hst hu
    · exact .inl ⟨row, payload, rfl, hrow⟩
    · exact .inr ⟨fun row payload hi => hother row payload (Except.ok.inj hi), hkept⟩

/-- The rows that the host's transactions send to a session that stays open are answered `OK` in order; the other
transactions leave nothing but history. -/
theorem rowsEncoded_of_runSteps {ts : List Transaction} {s t : State} (hb : s.inbox = ts) (hst : s.st = .opened)
    (hrun : runSteps ts.length s = .next t) (ht : t.st = .opened) (rs : List Word64) :
    ∃ rs', RowsEncoded (onHistory rs s) (rowsSent s ts) (onHistory rs' t) := by
  induction ts generalizing s rs with
  | nil =>
    injection hrun with hrun
    subst hrun
    exact ⟨rs, .nil _⟩
  | cons tr rest ih =>
    obtain ⟨u, hu, hrun⟩ := runSteps_succ_next hrun
    have hbound : s.st ≠ .unopened := by simp [hst]
    have hust : u.st = .opened := by
      obtain hkept | hclosed := step_st_eq_or_closed hu hbound
      · exact hkept.trans hst
      · have := runSteps_st_eq_or_closed hrun (by simp [hclosed])
        simp [ht, hclosed] at this
    obtain ⟨hinbox, -⟩ := step_response hb hu
    have hrows := (step_sameGeometry hbound hu).rowsSent_eq rest
    obtain ⟨row, payload, hd, hrow⟩ | ⟨hother, hkept⟩ := step_row_or_kept hb hu hst hust
    · obtain ⟨rs', hrest⟩ := ih hinbox hust hrun (rs ++ [responseWord .ok 0])
      rw [hrows] at hrest
      have hl : payload.length = sampleCount s := (hrow rs).samples
      rw [rowsSent_cons_row hd hl]
      exact ⟨rs', .cons (hrow rs) hrest⟩
    · obtain ⟨rs', hrest⟩ := ih hinbox hust hrun rs
      rw [hrows, hkept] at hrest
      rw [rowsSent_cons_other hother]
      exact ⟨rs', hrest⟩

end Sys2Proof.Machine
end

section
/-! CERTIFICATE. The statements about `ENC` (41_encode.md). -/

namespace Sys2Proof.Certificates

open Sys2Proof Sys2Proof.Machine

/-- Settles O27: the permutation of indices, read pixel by pixel. -/
theorem reorderIsTheChannelPermutation : Obligations.ReorderIsTheChannelPermutation := by
  unfold Obligations.ReorderIsTheChannelPermutation
  intro w c p hc hl
  refine ⟨(reorderRow_length w c p).trans hl, fun x k hx hk => ?_,
    fun i hi => ⟨reorderRow_getElem? hl hi, sourceIndex_lt hc hi⟩, ?_, reorderRow_reorderRow w c p⟩
  · have hrow : (x + 1) * c ≤ w * c := Nat.mul_le_mul_right c hx
    have hi : x * c + k < w * c := by rw [Nat.succ_mul] at hrow; omega
    rw [reorderRow_getElem? hl hi, sourceIndex_pixel hc hk]
    split_ifs <;> rfl
  · rintro rfl
    exact reorderRow_one w p

/-- Settles O28: the padding starts behind the last pixel group. -/
theorem paddingAppendsZeros : Obligations.PaddingAppendsZeros := by
  unfold Obligations.PaddingAppendsZeros
  intro w c p _ hl
  have hle : p.length ≤ padLength w c := hl.trans_le (le_padLength w c)
  have hbyte : ∀ i, i < padLength w c → (padRow (padLength w c) p)[i]? = if i < w * c then p[i]? else some 0 := by
    rw [← hl]
    exact fun i hi => padRow_getElem? hi hle
  refine ⟨(padRow_length _ p).trans (max_eq_left hle), fun i hi => ?_, fun i hlow hi => ?_, ?_, fun hmod => ?_,
    padRow_reorderRow hl.ge _⟩
  · rw [hbyte i (hi.trans_le (le_padLength w c)), if_pos hi]
  · rw [hbyte i hi, if_neg (not_lt.mpr hlow)]
  · have := padLength_lt w c
    omega
  · exact padRow_of_le (by rw [padLength_of_mod hmod, hl])

/-- Settles O29: the inversion by arithmetic, and the row's place from the geometry the invariant keeps. -/
theorem rowMappingIsTheBottomUpInversion : Obligations.RowMappingIsTheBottomUpInversion := by
  unfold Obligations.RowMappingIsTheBottomUpInversion
  refine ⟨fun h y hy => ?_, fun s y hs hst hy => ?_⟩
  · unfold diskRow
    omega
  · obtain ⟨-, hend⟩ := rowAddress_bounds s hy
    exact ⟨rfl, hs.rowAddress_mod hst y, hend, hs.fits hst⟩

/-- Settles O31: the row's write, read byte by byte. -/
theorem successfulEncInClosedForm : Obligations.SuccessfulEncInClosedForm := by
  unfold Obligations.SuccessfulEncInClosedForm
  intro s row p hs hst hr hl hfull
  obtain ⟨t, ht⟩ := hs.exec_answers (.enc row p)
  have hrow : RowEncoded s row p t := (exec_effect ht).rowEncoded_of_full hst hr hl hfull
  have hbound : s.st ≠ .unopened := by simp [hst]
  obtain ⟨hc, -, -⟩ := hs.bound hbound
  have hle : sampleCount s ≤ s.padlen.toNat := hs.samples_le_padlen hbound
  have hbyte : ∀ i, i < s.padlen.toNat → t.sink.read (rowAddress s row.toNat + i) =
      if i < sampleCount s then p[sourceIndex s.nchan.toNat i]? else some 0 := fun i hi => by
    rw [hrow.sink, Memory.read_writeBytes_inside (by rwa [diskBytes_length]), diskBytes_getElem? hl hle hi]
  refine ⟨t, ht, fun i hi => ⟨?_, ?_⟩, fun i hlow hi => ?_, fun b hb => ?_, ?_, hrow.rowcnt_toNat, ?_⟩
  · exact (sourceIndex_lt hc hi).trans_eq hl.symm
  · exact (hbyte i (lt_of_lt_of_le hi hle)).trans (if_pos hi)
  · exact (hbyte i hi).trans (if_neg (not_lt.mpr hlow))
  · exact hrow.effect.enc_read_outside_row hb
  · rw [hrow.sinkPos_eq, acceptedCount_full hfull]
    rfl
  · rw [hrow.eq]
    rfl

/-- Settles O32: the write is the same in both cases, and the accepted count decides the result stage. -/
theorem encResultFollowsTheAcceptedCount : Obligations.EncResultFollowsTheAcceptedCount := by
  unfold Obligations.EncResultFollowsTheAcceptedCount
  intro s row p hs hst hr hl
  have hend := hs.row_end (by simp [hst]) hr
  have hle := acceptedCount_le s.padlen.toNat s
  obtain hn | hn := hle.lt_or_eq
  · refine ⟨_, _, exec_enc_short hst hr hl (by omega) (by omega) hn, hle, rfl, rfl,
      fun i => afterWrite_read_inside row p, fun b => afterWrite_read_outside row p, fun h => absurd h hn.ne, fun _ => ?_⟩
    exact ⟨rfl, rfl, rfl, rfl, rfl, rfl⟩
  · refine ⟨_, _, exec_enc_full hst hr hl (by omega) (by omega) hn, hle, rfl, rfl,
      fun i => afterWrite_read_inside row p, fun b => afterWrite_read_outside row p, fun _ => ?_, fun h => absurd hn h.ne⟩
    exact ⟨hst, rowcntNext_toNat s.rowcnt, rfl, rfl, rfl, rfl⟩

/-- Settles O38: what one `ENC` can do, field by field. -/
theorem encFrame : Obligations.EncFrame := by
  unfold Obligations.EncFrame
  intro s t row p _ h
  have he := exec_effect h
  obtain ⟨hpixoff, hpadlen⟩ := he.pixoff_padlen_eq nofun
  obtain ⟨hinbox, -⟩ := he.response
  refine ⟨he.width_eq nofun, he.height_eq nofun, he.nchan_eq nofun, hpixoff, hpadlen, hinbox, ?_,
    he.enc_errors_eq_of_st, fun b => he.enc_read_outside_row, he.enc_kept_of_refused⟩
  obtain hkept | ⟨hok, -⟩ := he.rowcnt_eq_or_ok
  · exact .inl hkept
  · exact .inr (he.rowcnt_of_enc_ok hok)

/-- Settles O49: sequences that succeed are rows answered `OK`, and so are the rows among any transactions that leave the
session open. -/
theorem rowOrderDoesNotMatter : Obligations.RowOrderDoesNotMatter := by
  unfold Obligations.RowOrderDoesNotMatter
  refine ⟨fun s t rows _ hst hrun hres => ?_, fun s t u rows others _ _ hrun hres hrun' hres' hlast b hlow hhigh => ?_,
    fun s t u rows buf _ _ hrun hres hrun' hres' hlast => ?_, fun s t _ hst hrun ht y p hsent => ?_⟩
  · have hrows := rowsEncoded_of_success hrun hres
    exact ⟨hrows.st_eq hst, fun y p => hrows.rowWritten⟩
  · have hrows := rowsEncoded_of_success hrun hres
    have hothers := rowsEncoded_of_success hrun' hres'
    have hsome : ∀ y, y < s.height.toNat → lastSent rows y = some ((lastSent rows y).getD []) := fun y hy => by
      obtain ⟨hsent, -⟩ := hlast y hy
      obtain ⟨p, hp⟩ := Option.ne_none_iff_exists'.mp hsent
      rw [hp, Option.getD_some]
    have hsome' : ∀ y, y < s.height.toNat → lastSent others y = some ((lastSent rows y).getD []) := fun y hy => by
      obtain ⟨-, hsame⟩ := hlast y hy
      exact hsame.trans (hsome y hy)
    exact read_eq_of_rowWritten hrows.sameGeometry hothers.sameGeometry (fun y hy => hrows.rowWritten (hsome y hy))
      (fun y hy => hothers.rowWritten (hsome' y hy)) hlow hhigh
  · have hrows := rowsEncoded_of_success hrun hres
    rw [replayCommands_eq] at hrun'
    have hreplay : RowsEncoded s (replayRows { block := s, tiled := true, tileBuffer := buf }) u :=
      rowsEncoded_of_success hrun' hres'
    have hwritten : ∀ y, y < s.height.toNat → RowWritten u y (bufferRow s.width.toNat s.nchan.toNat buf y) :=
      fun y hy => hreplay.rowWritten (lastSent_replayRows rfl hy)
    exact ⟨hwritten, fun b hlow hhigh => read_eq_of_rowWritten hrows.sameGeometry hreplay.sameGeometry
      (fun y hy => hrows.rowWritten (hlast y hy)) hwritten hlow hhigh⟩
  · obtain ⟨_, hrows⟩ := rowsEncoded_of_runSteps rfl hst hrun ht []
    exact hrows.rowWritten hsent

/-- Settles O22: the abort's whole next state, and no other path's answer is its word. -/
theorem rowIndexOutOfRangeAborts : Obligations.RowIndexOutOfRangeAborts := by
  unfold Obligations.RowIndexOutOfRangeAborts
  exact ⟨fun s row p hst hr => exec_enc_rowRejected hst hr p,
    fun s t row p _ hr h => (exec_effect h).responses_ne_rowIndexOutOfRange hr⟩

/-- Settles O23: the third check of `ENC`, after the state and the row index. -/
theorem wrongPayloadLengthChangesNothing : Obligations.WrongPayloadLengthChangesNothing := by
  unfold Obligations.WrongPayloadLengthChangesNothing
  exact fun s row p hst hr hl => exec_enc_badLength hst hr hl

/-- Settles O30: the row's write in full, then the result stage that counts it. -/
theorem encWithAFullWriteCompletes : Obligations.EncWithAFullWriteCompletes := by
  unfold Obligations.EncWithAFullWriteCompletes
  intro s row p hst hr hl ha he hfull
  have hn := acceptedCount_full hfull
  rw [exec_enc_full hst hr hl ha he hn, afterWrite_of_full hn]
  rfl

/-- Settles O33: a row of no columns is no bytes at the start of the pixel region, and no bytes are always accepted. -/
theorem zeroWidthRowAlwaysSucceeds : Obligations.ZeroWidthRowAlwaysSucceeds := by
  unfold Obligations.ZeroWidthRowAlwaysSucceeds
  intro s row hs hst hwidth hr
  have hend := hs.row_end (by simp [hst]) hr
  obtain ⟨-, -, hpadlen⟩ := hs.bound (by simp [hst])
  rw [hwidth] at hpadlen
  have hzero : s.padlen.toNat = 0 := hpadlen.trans (padLength_zero _)
  have hsamples : ([] : List Byte).length = sampleCount s := by simp [sampleCount, hwidth]
  have hn : acceptedCount s.padlen.toNat s = s.padlen.toNat := by rw [hzero, acceptedCount_zero]
  have haddress : rowAddress s row.toNat = s.pixoff.toNat := by rw [rowAddress, hzero, Nat.mul_zero, Nat.add_zero]
  have hbuffer : rowBuffer s [] = [] := by
    rw [← List.length_eq_zero_iff, rowBuffer, padRow_length, reorderRow_length, hzero]
    rfl
  have hdisk : diskBytes s [] = [] := by rw [← List.length_eq_zero_iff, diskBytes_length, hzero]
  rw [exec_enc_full hst hr hsamples (by omega) (by omega) hn, afterWrite_of_full hn, hbuffer, hdisk, haddress, hzero]
  rfl

end Sys2Proof.Certificates
end

section
/-! SUPPORT. Admission, the transitions of the session state, and the registers as `RD` answers with them
(42_session.md R140 to R144). -/

namespace Sys2Proof.Machine

/-! ## Admission -/

theorem answer_responses_ne {e e' : ErrorKind} (h : e ≠ e') (v v' : BitVec 56) (s : State) :
    (answer e v s).responses ≠ s.responses ++ [responseWord e' v'] := by
  rw [answer_responses, Ne, List.append_cancel_left_eq, List.singleton_inj]
  exact responseWord_ne h v v'

/-- Only a command outside the permission matrix is answered `BadState` (42_session.md R142). -/
theorem Effect.responses_ne_badState {s t : State} {i : Instr} (he : Effect s i t) (hi : admits s.st i = true) :
    t.responses ≠ s.responses ++ [responseWord .badState 0] := by
  cases he with
  | notAdmitted _ h => simp [h] at hi
  | badChannels | tooLarge | badLength | registerRead | releasedBefore | widthSet | heightSet | channelsSet | bound
  | rowRejected | rowWritten | rowShort | released => exact answer_responses_ne (by decide) _ _ s

/-! ## Transitions -/

/-- The three rows of 42_session.md R143 that a command takes, each with its cause and what else happens at it. -/
def SessionTransition (s t : State) (i : Instr) : Prop :=
  (s.st = .unopened ∧ t.st = .opened ∧ i = .bind ∧ t.releases = s.releases ∧ t.rowcnt = 0 ∧
    t.pixoff = BitVec.ofNat 32 (pixelOffset s.nchan.toNat) ∧
    t.padlen = BitVec.ofNat 33 (padLength s.width.toNat s.nchan.toNat)) ∨
  (s.st = .opened ∧ t.st = .closed ∧ i = .rel ∧ t.releases = s.releases + 1 ∧
    t.poison = s.poison ∧ t.faultCode = s.faultCode) ∨
  (s.st = .opened ∧ t.st = .closed ∧ (∃ row p, i = .enc row p) ∧ t.releases = s.releases + 1 ∧ t.poison = true ∧
    ((t.faultCode = 5 ∧ t.responses = s.responses ++ [responseWord .rowIndexOutOfRange 0]) ∨
      (t.faultCode = 6 ∧ t.responses = s.responses ++ [responseWord .shortWrite 0])))

/-- A successful `BIND`, a release in `OPEN` and the two aborts are the only effects on `ST` and on the release count. -/
theorem Effect.kept_or_transition {s t : State} {i : Instr} (he : Effect s i t) :
    (t.st = s.st ∧ t.releases = s.releases) ∨ SessionTransition s t i := by
  cases he with
  | bound h => exact .inr (.inl ⟨h, rfl, rfl, rfl, rfl, rfl, rfl⟩)
  | released h => exact .inr (.inr (.inl ⟨h, rfl, rfl, rfl, rfl, rfl⟩))
  | rowRejected row payload h => exact .inr (.inr (.inr ⟨h, rfl, ⟨row, payload, rfl⟩, rfl, rfl, .inl ⟨rfl, rfl⟩⟩))
  | rowShort row payload h => exact .inr (.inr (.inr ⟨h, rfl, ⟨row, payload, rfl⟩, rfl, rfl, .inr ⟨rfl, rfl⟩⟩))
  | notAdmitted | badChannels | tooLarge | badLength | registerRead | releasedBefore | widthSet | heightSet | channelsSet
  | rowWritten => exact .inl ⟨rfl, rfl⟩

/-- In `CLOSED` a command changes nothing but the answers (42_session.md R144). -/
theorem Effect.eq_of_closed {s t : State} {i : Instr} (he : Effect s i t) (hst : s.st = .closed) :
    t = { s with responses := t.responses } := by
  cases he with
  | notAdmitted | registerRead | releasedBefore => rfl
  | badChannels h | tooLarge h | badLength _ _ h | widthSet _ h | heightSet _ h | channelsSet _ h | bound h
  | rowRejected _ _ h | rowWritten _ _ h | rowShort _ _ h | released h => cases hst.symm.trans h

/-! ## Registers -/

/-- `STATUS` as a number (10_state.md R26). -/
theorem statusWord_toNat (s : State) : (statusWord s).toNat = s.st.code.toNat + 4 * s.poison.toNat := by
  unfold statusWord
  cases s.poison <;> cases s.st <;> rfl

/-- Every register reads 0 after reset (10_state.md R36). -/
theorem readReg_blockReset (r : Reg) (s : State) : readReg r (blockReset s) = 0 := by
  cases r with
  | status => simp [readReg, statusWord, SessionState.code]
  | width | height | nchan | pixoff | padlen | fault | rowcnt => rfl

/-- The registers by index (10_state.md R29). -/
theorem registers_getElem?_index (r : Reg) :
    [Reg.width, .height, .nchan, .pixoff, .padlen, .status, .fault, .rowcnt][r.index]? = some r := by
  cases r <;> rfl

/-- A word of `RD`: the index must be one of a register too (30_encoding.md R85 case 5). -/
theorem illegal_of_register {t : Transaction} (hop : opOf t.word = 0x07)
    (h : rsvOf t.word ≠ 0 ∨ 8 ≤ (immOf t.word).toNat ∨ t.payload ≠ []) : Illegal t := by
  have hne : opOf t.word ≠ 0x05 := by rw [hop]; decide
  obtain hrsv | himm | hpayload := h
  · exact illegal_of_rsv_or_payload hne (.inl hrsv)
  · exact .inr (.inr (.inr (.inr (.inl ⟨hop, himm⟩))))
  · exact illegal_of_rsv_or_payload hne (.inr hpayload)

end Sys2Proof.Machine
end

section
/-! CERTIFICATE. The statements about the session (42_session.md). -/

namespace Sys2Proof.Certificates

open Sys2Proof Sys2Proof.Machine

/-- Settles O18: the matrix refuses before anything else, and no admitted effect answers `BadState`. -/
theorem permissionMatrixDecidesAdmission : Obligations.PermissionMatrixDecidesAdmission := by
  unfold Obligations.PermissionMatrixDecidesAdmission
  exact fun i s => ⟨exec_notAdmitted, fun hi t h => (exec_effect h).responses_ne_badState hi⟩

/-- Settles O19: a step that runs no command keeps the session, and each effect that moves it is a row of R143. -/
theorem sessionStateMachine : Obligations.SessionStateMachine := by
  unfold Obligations.SessionStateMachine
  refine ⟨fun s t h => ?_, fun s => ⟨rfl, fun r => readReg_blockReset r s⟩⟩
  obtain ⟨-, rfl⟩ | ⟨tr, rest, e, -, -, rfl⟩ | ⟨tr, rest, i, hb, hd, he⟩ := step_cases h
  · exact .inl ⟨rfl, rfl⟩
  · exact .inl ⟨rfl, rfl⟩
  · exact he.kept_or_transition.imp_right fun htransition => ⟨tr, rest, i, hb, hd, htransition⟩

/-- Settles O20: in `CLOSED` the effects left are a refusal, a register read and a second release, and each only answers. -/
theorem closedIsTerminal : Obligations.ClosedIsTerminal := by
  unfold Obligations.ClosedIsTerminal
  intro s t hst h
  obtain ⟨-, rfl⟩ | ⟨tr, rest, e, -, -, rfl⟩ | ⟨tr, rest, i, -, -, he⟩ := step_cases h
  · rfl
  · rfl
  · rw [he.eq_of_closed hst]

/-- Settles O16: `REL` by session state, and the words of its opcode, which take no operand. -/
theorem relReleasesTheSinkOnce : Obligations.RelReleasesTheSinkOnce := by
  unfold Obligations.RelReleasesTheSinkOnce
  refine ⟨fun s hst => exec_notAdmitted (by simp [admits, hst]), fun s hst => exec_rel_opened hst,
    fun s hst => exec_rel_closed hst, fun t s rest hop hb => ⟨fun h => ?_, fun hrsv himm hpayload => ?_⟩⟩
  · exact step_of_illegal hb (illegal_of_no_operand (.inr hop) h)
  · exact step_of_fields hb trivial hop hrsv himm hpayload

/-- Settles O17: zero-extension to 56 bits keeps a register's value, and an index below 8 is a register's. -/
theorem rdAnswersWithTheRegister : Obligations.RdAnswersWithTheRegister := by
  unfold Obligations.RdAnswersWithTheRegister
  have hextend : ∀ {n : Nat} (x : BitVec n), n ≤ 56 → (x.setWidth 56).toNat = x.toNat :=
    fun x hn => BitVec.toNat_setWidth_of_le hn
  refine ⟨fun r s => rfl, fun s => ⟨hextend _ (by decide), hextend _ (by decide), hextend _ (by decide),
    hextend _ (by decide), hextend _ (by decide), ?_, hextend _ (by decide), hextend _ (by decide)⟩,
    fun t s rest hop hb => ⟨fun h => ?_, fun hrsv himm hpayload => ?_⟩⟩
  · rw [readReg, hextend _ (by decide), statusWord_toNat]
    cases s.st <;> cases s.poison <;> rfl
  · exact step_of_illegal hb (illegal_of_register hop h)
  · obtain ⟨r, hr⟩ := Option.ne_none_iff_exists'.mp ((regOfIndex_eq_none _).not.mpr (not_le.mpr himm))
    refine ⟨r, step_of_fields hb trivial hop hrsv (eq_immediate_of_regOfIndex hr) hpayload, ?_⟩
    rw [← index_of_regOfIndex hr]
    exact registers_getElem?_index r

end Sys2Proof.Certificates
end

section
/-! SUPPORT. The two kinds of error: one that aborts the session, and one that only answers (60_exceptions.md R160 to R162). -/

namespace Sys2Proof.Machine

/-- An abort of the session by `ENC`, as the registers and the release count show it (60_exceptions.md R161). -/
structure Aborts (s t : State) (i : Instr) : Prop where
  enc : ∃ row payload, i = .enc row payload
  opened : s.st = .opened
  closed : t.st = .closed
  poisoned : t.poison = true
  fault : t.faultCode = 5 ∨ t.faultCode = 6
  released : t.releases = s.releases + 1
  geometry : SameGeometry s t
  counter : t.rowcnt = s.rowcnt

/-- `POISON` and `FAULT` are written by an abort only: of a row index that is not one of the image, or of a short write. -/
theorem Effect.errors_eq_or_aborts {s t : State} {i : Instr} (he : Effect s i t) :
    (t.poison = s.poison ∧ t.faultCode = s.faultCode) ∨ Aborts s t i := by
  cases he with
  | rowRejected row payload h =>
    exact .inr ⟨⟨row, payload, rfl⟩, h, rfl, rfl, .inl rfl, rfl, ⟨rfl, rfl, rfl, rfl, rfl⟩, rfl⟩
  | rowShort row payload h =>
    exact .inr ⟨⟨row, payload, rfl⟩, h, rfl, rfl, .inr rfl, rfl, ⟨rfl, rfl, rfl, rfl, rfl⟩, rfl⟩
  | notAdmitted | badChannels | tooLarge | badLength | registerRead | releasedBefore | widthSet | heightSet | channelsSet
  | bound | rowWritten | released => exact .inl ⟨rfl, rfl⟩

/-- The codes of the errors that do not abort (60_exceptions.md R162). -/
abbrev nonAbortingCodes : List Nat := [2, 3, 7, 8]

/-- A command only answers, or its answer's code is not that of an error that does not abort. -/
theorem Effect.answers_only_or_code {s t : State} {i : Instr} (he : Effect s i t) :
    (∃ e, t = answer e 0 s) ∨
    ∃ e v, t.responses = s.responses ++ [responseWord e v] ∧ e.code.toNat ∉ nonAbortingCodes := by
  cases he with
  | notAdmitted | badChannels | tooLarge | badLength => exact .inl ⟨_, rfl⟩
  | registerRead | releasedBefore | widthSet | heightSet | channelsSet | bound | rowRejected | rowWritten | rowShort
  | released => exact .inr ⟨_, _, rfl, by decide⟩

/-- A step that takes a transaction: so too when the transaction is illegal. -/
theorem step_answers_only_or_code {s t : State} {tr : Transaction} {rest : List Transaction} (hb : s.inbox = tr :: rest)
    (h : step s = .next t) :
    (∃ e, t = answer e 0 { s with inbox := rest }) ∨
    ∃ e v, t.responses = s.responses ++ [responseWord e v] ∧ e.code.toNat ∉ nonAbortingCodes := by
  cases hd : decode tr with
  | error err =>
    rw [step_illegal hb hd] at h
    injection h with h
    exact .inl ⟨.illegalCommand, h.symm⟩
  | ok i =>
    rw [step_legal hb hd] at h
    exact (exec_effect h).answers_only_or_code

end Sys2Proof.Machine
end

section
/-! CERTIFICATE. The statements about errors and their order (60_exceptions.md). -/

namespace Sys2Proof.Certificates

open Sys2Proof Sys2Proof.Machine

/-- Settles O24: a step that runs no command keeps both registers, and of the effects of a command only the two aborts write
them. -/
theorem onlyAnAbortWritesFaultAndPoison : Obligations.OnlyAnAbortWritesFaultAndPoison := by
  unfold Obligations.OnlyAnAbortWritesFaultAndPoison
  refine ⟨fun s t h hchanged => ?_, abortSession_eq .rowIndexOutOfRange, abortSession_eq .shortWrite⟩
  have hnotkept : ¬ (t.poison = s.poison ∧ t.faultCode = s.faultCode) := by rwa [not_and_or]
  obtain ⟨-, rfl⟩ | ⟨tr, rest, e, -, -, rfl⟩ | ⟨tr, rest, i, hb, hd, he⟩ := step_cases h
  · exact absurd ⟨rfl, rfl⟩ hnotkept
  · exact absurd ⟨rfl, rfl⟩ hnotkept
  · obtain hkept | habort := he.errors_eq_or_aborts
    · exact absurd hkept hnotkept
    · obtain ⟨row, payload, rfl⟩ := habort.enc
      obtain ⟨hwidth, hheight, hnchan, hpixoff, hpadlen⟩ := habort.geometry
      exact ⟨habort.opened, habort.closed, habort.poisoned, habort.fault, habort.released, hwidth, hheight, hnchan,
        hpixoff, hpadlen, habort.counter, tr, rest, row, payload, hb, hd⟩

/-- Settles O25: of the steps that do more than answer, none answers with one of the four codes. -/
theorem nonAbortingErrorsHaveNoEffect : Obligations.NonAbortingErrorsHaveNoEffect := by
  unfold Obligations.NonAbortingErrorsHaveNoEffect
  intro s t tr rest r hb h hr hcode
  obtain ⟨e, rfl⟩ | ⟨e, v, hresponse, hother⟩ := step_answers_only_or_code hb h
  · obtain rfl : responseWord e 0 = r := List.singleton_inj.mp (List.append_cancel_left hr)
    exact ⟨valOf_responseWord e 0, rfl⟩
  · obtain rfl : responseWord e v = r := List.singleton_inj.mp (List.append_cancel_left (hresponse.symm.trans hr))
    rw [errOf_responseWord] at hcode
    exact absurd hcode hother

/-- Settles O26: each check by the lemma of its refusal, which asks nothing of the later checks. -/
theorem checksAreMadeInOrder : Obligations.ChecksAreMadeInOrder := by
  unfold Obligations.ChecksAreMadeInOrder
  refine ⟨fun s t rest hb hillegal => step_of_illegal hb hillegal, fun s t rest i hb hd hi => ?_,
    fun s t rest hb hd hst => ?_, fun s t rest hb hd hst hc => ?_, fun s t rest hb hd hst hc hf => ?_,
    fun s t rest row p hb hd hst hr => ?_, fun s t rest row p hb hd hst hr hl => ?_⟩ <;> rw [step_legal hb hd]
  · exact exec_notAdmitted hi
  · exact exec_rel_closed hst
  · exact exec_bind_badChannels hst hc
  · exact exec_bind_tooLarge hst hc hf
  · exact exec_enc_rowRejected (s := { s with inbox := rest }) hst hr p
  · exact exec_enc_badLength hst hr hl

/-- Settles O43: an empty list of transactions is the idle branch of a step. -/
theorem idleBlockKeepsItsState : Obligations.IdleBlockKeepsItsState := by
  unfold Obligations.IdleBlockKeepsItsState
  exact fun _ => step_idle

end Sys2Proof.Certificates
end

section
/-! SUPPORT. What the hazards of 70_reset_and_hazards.md turn on: a closed session along a run (R185), the sink's position after
the headers and after a row (R186), the calls of a session that mixes its two paths (R190), and the rows counted by distinct
indices (R192). -/

namespace Sys2Proof.Machine

/-! ## A closed session -/

/-- However many steps a closed session takes, only the host's list and the answers change (42_session.md R144). -/
theorem runSteps_eq_of_closed {k : Nat} {s t : State} (h : runSteps k s = .next t) (hst : s.st = .closed) :
    t = { s with inbox := t.inbox, responses := t.responses } := by
  induction k generalizing s with
  | zero =>
    injection h with h
    rw [h]
  | succ k ih =>
    obtain ⟨u, hu, hrun⟩ := runSteps_succ_next h
    have hfirst : u = { s with inbox := u.inbox, responses := u.responses } := Certificates.closedIsTerminal s u hst hu
    have hclosed : u.st = .closed := (congrArg State.st hfirst).trans hst
    calc t = { u with inbox := t.inbox, responses := t.responses } := ih hrun hclosed
      _ = { s with inbox := t.inbox, responses := t.responses } := by rw [hfirst]

/-! ## The sink's position -/

section
variable (w h c : Nat) (res : Resolution) (s : State)

theorem withHeaders_sink : (withHeaders w h c res s).sink = s.sink.writeBytes s.sinkPos (headerRegion w h c res) := by
  rw [withHeaders]

theorem withHeaders_sinkPos : (withHeaders w h c res s).sinkPos = s.sinkPos + pixelOffset c := by
  rw [withHeaders, headerRegion_length]

/-- The Header Builder's write changes the sink's bytes and position only. -/
theorem withHeaders_frame : withHeaders w h c res s =
    { s with sink := (withHeaders w h c res s).sink, sinkPos := (withHeaders w h c res s).sinkPos } := by
  simp only [withHeaders]

end

/-- An `ENC` answered with the word 0 of success leaves the position behind its row's last byte: its write was full
(41_encode.md R129). -/
theorem Effect.sinkPos_of_enc_ok {s t : State} {row : Word32} {payload : List Byte} (he : Effect s (.enc row payload) t)
    (hok : t.responses = s.responses ++ [0]) :
    row.toNat < s.height.toNat ∧ t.sinkPos = rowAddress s row.toNat + s.padlen.toNat := by
  cases he with
  | notAdmitted | badLength | rowRejected | rowShort => exact absurd hok (answer_responses_ne_ok (by decide))
  | rowWritten _ _ _ hr _ hn => exact ⟨hr, by rw [answer_sinkPos, afterWrite, hn]⟩

/-- Of rows that hold bytes, logical row 0 alone ends where the file ends (41_encode.md R127). -/
theorem row_end_eq_fileSize_iff {s : State} {y : Nat} (hy : y < s.height.toNat) (hpos : 0 < s.padlen.toNat) :
    rowAddress s y + s.padlen.toNat = fileSize s ↔ y = 0 := by
  have hend : diskRow s.height.toNat y + 1 = s.height.toNat - y := by unfold diskRow; omega
  calc rowAddress s y + s.padlen.toNat = fileSize s
    _ ↔ (s.height.toNat - y) * s.padlen.toNat = s.height.toNat * s.padlen.toNat := by
      rw [rowAddress, fileSize, Nat.add_assoc, ← Nat.succ_mul, Nat.succ_eq_add_one, hend, Nat.add_left_cancel_iff,
        Nat.mul_comm s.padlen.toNat]
    _ ↔ y = 0 := by
      rw [Nat.mul_left_inj hpos.ne']
      omega

/-! ## The two paths of a session -/

theorem writeScanline_tiled (y : Word32) (samples : List Byte) {h : HostSession} (htiled : h.tiled = true) :
    writeScanline y samples h = .fault .mixedPaths := if_pos htiled

/-- Without tiling a scanline is one `ENC` (30_encoding.md R92). -/
theorem writeScanline_untiled (y : Word32) (samples : List Byte) {h : HostSession} (htiled : h.tiled = false) :
    writeScanline y samples h = h.run (exec (.enc y samples) h.block) (sessionResult h.block) := by
  rw [writeScanline, if_neg (by simp [htiled]), runCommands_singleton, sendCommand_eq_exec trivial]

theorem writeTile_untiled (x y z tw th : Nat) (samples : List Byte) {h : HostSession} (htiled : h.tiled = false) :
    writeTile x y z tw th samples h = .fault .mixedPaths := if_pos htiled

section
variable {h : HostSession} (htiled : h.tiled = true)
include htiled

theorem writeTile_not_opened (x y z tw th : Nat) (samples : List Byte) (hst : h.block.st ≠ .opened) :
    writeTile x y z tw th samples h = .next (h, .failed .badState) := by
  rw [writeTile, if_neg (by simp [htiled]), if_pos hst]

theorem writeTile_outside {x y tw th : Nat} (samples : List Byte) (hst : h.block.st = .opened)
    (hout : h.block.width.toNat < x + tw ∨ h.block.height.toNat < y + th) :
    writeTile x y 0 tw th samples h = .fault .tileOutsideImage := by
  rw [writeTile, if_neg (by simp [htiled]), if_neg (not_not.mpr hst), if_neg (not_not.mpr rfl), if_pos hout]

end

/-! ## Distinct rows -/

section
variable {l : List Nat} {n : Nat} (hnodup : l.Nodup) (hlt : ∀ y ∈ l, y < n)
include hnodup hlt

theorem subperm_range_of_nodup : l.Subperm (List.range n) :=
  hnodup.subperm fun y hy => List.mem_range.mpr (hlt y hy)

theorem length_le_of_nodup : l.length ≤ n := by
  simpa only [List.length_range] using (subperm_range_of_nodup hnodup hlt).length_le

/-- Distinct numbers below `n` are `n` many exactly when none is missing. -/
theorem length_eq_iff_of_nodup : l.length = n ↔ ∀ y, y < n → y ∈ l := by
  constructor
  · intro hlength y hy
    have hperm : l.Perm (List.range n) :=
      (subperm_range_of_nodup hnodup hlt).perm_of_length_le (by rw [List.length_range, hlength])
    exact hperm.mem_iff.mpr (List.mem_range.mpr hy)
  · intro hall
    have hsubperm : (List.range n).Subperm l := List.nodup_range.subperm fun y hy => hall y (List.mem_range.mp hy)
    exact le_antisymm (length_le_of_nodup hnodup hlt) (by simpa only [List.length_range] using hsubperm.length_le)

end

/-- Each row answered `OK` is one of the image (41_encode.md R122). -/
theorem RowsEncoded.index_lt {s t : State} {rows : List (Word32 × List Byte)} (h : RowsEncoded s rows t) :
    ∀ y ∈ rows.map fun r => r.1.toNat, y < s.height.toNat := by
  induction h with
  | nil s => simp
  | cons hfirst _ ih =>
    obtain ⟨-, hheight, -⟩ := hfirst.sameGeometry
    rw [hheight] at ih
    exact List.forall_mem_cons.mpr ⟨hfirst.index, ih⟩

theorem lastSent_ne_none_iff {rows : List (Word32 × List Byte)} {y : Nat} :
    lastSent rows y ≠ none ↔ y ∈ rows.map fun r => r.1.toNat := by
  induction rows with
  | nil => simp [lastSent]
  | cons r rows ih =>
    rw [Ne, lastSent_cons_eq_none, not_and_or, not_not, List.map_cons, List.mem_cons, ← ih, or_comm, eq_comm]

end Sys2Proof.Machine
end

section
/-! CERTIFICATE. The statements about hazards (70_reset_and_hazards.md). -/

namespace Sys2Proof.Certificates

open Sys2Proof Sys2Proof.Machine

/-- Settles O21: a run from `CLOSED` changes the host's list and the answers only, and `ENC` is admitted in `OPEN` only. -/
theorem noWritesAfterTheSessionEnds : Obligations.NoWritesAfterTheSessionEnds := by
  unfold Obligations.NoWritesAfterTheSessionEnds
  refine ⟨fun k s t hst h => ?_, fun s row p hst => exec_notAdmitted (by simpa [admits] using hst)⟩
  rw [runSteps_eq_of_closed h hst]
  exact ⟨hst, rfl, rfl, rfl⟩

/-- Settles O51: each row is counted once, so the count is that of distinct indices below `HEIGHT`. -/
theorem rowcntTellsACompleteImage : Obligations.RowcntTellsACompleteImage := by
  unfold Obligations.RowcntTellsACompleteImage
  intro s t rows hs hst hrowcnt hnodup hrun hres
  have hrows := rowsEncoded_of_success hrun hres
  obtain ⟨-, hheight, -⟩ := hrows.sameGeometry
  have hcount : t.rowcnt.toNat = rows.length := by
    have hle := length_le_of_nodup hnodup hrows.index_lt
    have hbound := s.height.isLt
    have hzero : (0 : Word32).toNat = 0 := rfl
    rw [List.length_map] at hle
    rw [hrows.rowcnt_toNat, hrowcnt, hzero]
    omega
  refine ⟨hcount, ?_⟩
  simp only [hcount, hheight, lastSent_ne_none_iff]
  simpa only [List.length_map] using length_eq_iff_of_nodup hnodup hrows.index_lt

/-- Settles O55: the headers are one write at the position found, and a row's end depends on its index alone. -/
theorem sinkPositionIsShared : Obligations.SinkPositionIsShared := by
  unfold Obligations.SinkPositionIsShared
  refine ⟨fun w h c res s _ hend => ?_, fun s t row p _ h hok => ?_⟩
  · have hlength := headerRegion_length w h c res
    have hwrite : writeHeaders w h c res s = .ok (withHeaders w h c res s) :=
      writeHeaders_eq_ok.mpr ⟨by rw [hlength, Config.sinkSize_eq]; exact hend, rfl⟩
    refine ⟨withHeaders w h c res s, hwrite, withHeaders_sinkPos w h c res s, fun b hb => ?_, fun b hb => ?_,
      withHeaders_frame w h c res s⟩ <;> rw [withHeaders_sink]
    · exact Memory.read_writeBytes_inside (by rwa [hlength])
    · exact Memory.read_writeBytes_outside (by rwa [hlength])
  · obtain ⟨hr, hpos⟩ := (exec_effect h).sinkPos_of_enc_ok hok
    refine ⟨hpos, fun hbytes => ?_⟩
    rw [hpos, row_end_eq_fileSize_iff hr hbytes, ← BitVec.toNat_inj]
    rfl

/-- Settles O56: the path is looked at first, then the state, then the tile's place. -/
theorem pathsAreNotMixed : Obligations.PathsAreNotMixed := by
  unfold Obligations.PathsAreNotMixed
  refine ⟨fun y samples h htiled => writeScanline_tiled y samples htiled,
    fun x y z tw th samples h htiled => writeTile_untiled x y z tw th samples htiled,
    fun x y tw th samples h htiled hst hout => writeTile_outside htiled samples hst hout,
    fun y samples h htiled hs => ?_,
    fun x y z tw th samples h htiled hst => writeTile_not_opened htiled x y z tw th samples hst⟩
  obtain ⟨t, ht⟩ := hs.exec_answers (.enc y samples)
  exact ⟨t, ht, by rw [writeScanline_untiled y samples htiled, ht, HostSession.run_next]⟩

end Sys2Proof.Certificates
end
